-- ==== Sys2Proof/Word.lean ====
section
/-! DEFINITION. The words of the block: bytes, register addresses, bit positions and pin levels (00_scope R7 to R9). -/

namespace Sys2Proof

/-- A byte: an unsigned 8-bit integer, bit 7 most significant (00_scope R8, R9). -/
abbrev Byte := BitVec 8

/-- A register address of a role parameter: 5 bits, 0x00 to 0x1F (00_scope R7). -/
abbrev RegAddr := BitVec 5

/-- A bit position of a role parameter: 0 to 7 (00_scope R7). -/
abbrev BitPos := Fin 8

/-- A pin level: `false` is low, 0, and `true` is high, 1 (00_scope R9, R19). -/
abbrev Level := Bool

end Sys2Proof
end

