-- ==== Sys2Proof/Syntax.lean ====
section
/-! DEFINITION. The instructions: one constructor per row of spec/opcode_table.json, the 24 host requests of
30_encoding R73 and the 4 wire command forms of 30_encoding R62 to R65, with the argument types of 00_scope R8 and
30_encoding R74. -/

namespace Sys2Proof

/-- A host pin identifier: an opaque host handle (00_scope R7). DESIGN CHOICE: a natural number (log entry 18). -/
abbrev PinId := Nat

/-- A host handler taking no arguments, known to the block by its handle only (10_state R30).
DESIGN CHOICE: a natural number (log entry 18). -/
abbrev Handler := Nat

/-- The six pin identifiers, one per signal role (10_state R21). -/
structure Pins where
  sck : PinId
  miso : PinId
  mosi : PinId
  csn : PinId
  ce : PinId
  irq : PinId
deriving DecidableEq, Repr, Inhabited

/-- The identifiers of a binding, in the order of 10_state R21. -/
def Pins.toList (p : Pins) : List PinId := [p.sck, p.miso, p.mosi, p.csn, p.ce, p.irq]

/-- The six identifiers are pairwise distinct (00_scope R7; 60_exceptions R144). -/
def Pins.distinct (p : Pins) : Bool := decide p.toList.Nodup

/-- The data rates (00_scope R8). -/
inductive DataRate where
  | dr1M
  | dr2M
  | dr250K
deriving DecidableEq, Repr, Inhabited

/-- The two formats of spec/opcode_table.json: a host request, or the command byte that opens a frame. -/
inductive Format where
  | hostop
  | cmd8
deriving DecidableEq, Repr

/-- The instructions of the block. The first 24 are the host requests in the order of their ordinals (30_encoding R73);
the last 4 are the wire command forms (30_encoding R62 to R65), each with the payload its frame carries. -/
inductive Instr where
  /-- 0, TRANSFER_BYTE (40_transport R82). -/
  | xfer (out : Byte)
  /-- 1, WRITE_COMMAND (40_transport R89). -/
  | wcmd (cmd : Byte) (data : List Byte)
  /-- 2, READ_REGISTER_N (41_register_access R97). -/
  | rregn (addr : Byte) (len : Nat)
  /-- 3, READ_REGISTER (41_register_access R98). -/
  | rreg (addr : Byte)
  /-- 4, WRITE_REGISTER_N (41_register_access R99). -/
  | wregn (addr : Byte) (buf : List Byte) (len : Nat)
  /-- 5, WRITE_REGISTER (41_register_access R100). -/
  | wreg (addr : Byte) (value : Byte)
  /-- 6, SET_BIT (41_register_access R101). -/
  | setb (addr : Byte) (bitIndex : Byte)
  /-- 7, CLEAR_BIT (41_register_access R102). -/
  | clrb (addr : Byte) (bitIndex : Byte)
  /-- 8, READ_BIT (41_register_access R106). -/
  | rbit (addr : Byte) (bitIndex : Byte)
  /-- 9, READ_RX_PAYLOAD_WIDTH (41_register_access R109). -/
  | rplw
  /-- 10, READ_RX_PAYLOAD (41_register_access R110). -/
  | rpl (len : Nat)
  /-- 11, POWER_UP (42_radio_control R115). -/
  | pwrup
  /-- 12, SHUT_DOWN (42_radio_control R116). -/
  | pwrdn
  /-- 13, SET_MODE_RX (42_radio_control R118). -/
  | rxmode
  /-- 14, SET_CH (42_radio_control R119). -/
  | ch (channel : Byte)
  /-- 15, SET_DATA_RATE (42_radio_control R120). -/
  | dr (rate : DataRate)
  /-- 16, GET_DATA_RATE (42_radio_control R122). -/
  | gdr
  /-- 17, SET_CRC_SIZE (42_radio_control R125). -/
  | crc (n : Byte)
  /-- 18, ENABLE_DYN_ACK (42_radio_control R126). -/
  | dynackOn
  /-- 19, DISABLE_DYN_ACK (42_radio_control R127). -/
  | dynackOff
  /-- 20, SET_RX_PAYLOAD_WIDTH (42_radio_control R128). -/
  | plw (pipe : Byte) (width : Byte)
  /-- 21, SET_RECEIVE_CALLBACK (42_radio_control R131); `none` is the absent handler. -/
  | onrx (handler : Option Handler)
  /-- 22, POLL (42_radio_control R132). -/
  | poll
  /-- 23, BEGIN (70_reset_and_hazards R151); `none` is `begin` with the model's pin parameters (30_encoding R77,
  log entry 8). -/
  | beginPins (pins : Option Pins)
  /-- `000aaaaa`, register read of `len` payload bytes (30_encoding R62, R67). -/
  | cmdReadRegister (a : RegAddr) (len : Nat)
  /-- `001aaaaa`, register write of the payload `data` (30_encoding R63, R67). -/
  | cmdWriteRegister (a : RegAddr) (data : List Byte)
  /-- 0x60, read last RX payload width, one payload byte (30_encoding R64). -/
  | cmdReadRxPayloadWidth
  /-- 0x61, read last RX payload, `len` payload bytes (30_encoding R65). -/
  | cmdReadRxPayload (len : Nat)
deriving DecidableEq, Repr

/-- The format of the row an instruction stands for. -/
def Instr.format : Instr → Format
  | .cmdReadRegister _ _ | .cmdWriteRegister _ _ | .cmdReadRxPayloadWidth | .cmdReadRxPayload _ => .cmd8
  | .xfer _ | .wcmd _ _ | .rregn _ _ | .rreg _ | .wregn _ _ _ | .wreg _ _ | .setb _ _ | .clrb _ _ | .rbit _ _
  | .rplw | .rpl _ | .pwrup | .pwrdn | .rxmode | .ch _ | .dr _ | .gdr | .crc _ | .dynackOn | .dynackOff
  | .plw _ _ | .onrx _ | .poll | .beginPins _ => .hostop

end Sys2Proof
end

