-- ==== Sys2Proof/Machine/Operands.lean ====
section
/-! DEFINITION. Operand assembly: every byte an operation computes from its arguments (30_encoding R70, R71;
40_transport R81; 41_register_access R96). -/

namespace Sys2Proof.Machine

/-- The byte whose bits, most significant first, are `b7` to `b0`. -/
def byteOfBits (b7 b6 b5 b4 b3 b2 b1 b0 : Bool) : Byte := BitVec.ofBoolListBE [b7, b6, b5, b4, b3, b2, b1, b0]

/-- Bit reversal: bit `i` of the result is bit `7 - i` of `b` (40_transport R81). -/
def rev8 (b : Byte) : Byte :=
  byteOfBits (b.getLsbD 0) (b.getLsbD 1) (b.getLsbD 2) (b.getLsbD 3) (b.getLsbD 4) (b.getLsbD 5) (b.getLsbD 6)
    (b.getLsbD 7)

/-- Read command byte: the address unchanged, for any byte (30_encoding R62; 41_register_access R96). -/
def cmdR (addr : Byte) : Byte := addr

/-- Write command byte: the address OR 0x20, on 8 bits, for any byte (30_encoding R63; 20_memory R58). -/
def cmdW (addr : Byte) : Byte := addr ||| 0x20

/-- The command byte of the payload-width read (30_encoding R64). -/
def cmdPayloadWidth : Byte := 0x60

/-- The command byte of the payload read (30_encoding R65). -/
def cmdPayload : Byte := 0x61

/-- A role's 5-bit register address, held in a byte (00_scope R7). -/
def regByte (a : RegAddr) : Byte := a.zeroExtend 8

/-- The one-bit mask of a bit position (30_encoding R70). -/
def mask (i : BitPos) : Byte := (1 : Byte) <<< i.val

/-- The data-rate field code: the high and the low bit of the field (30_encoding R71). -/
def rateCode : DataRate → Bool × Bool
  | .dr1M => (false, false)
  | .dr2M => (false, true)
  | .dr250K => (true, true)

/-- The rate a field reads as; the unreachable pair (1,0) decodes to 2 Mbps (42_radio_control R122). -/
def rateOfCode (hi lo : Bool) : DataRate :=
  if hi = false ∧ lo = false then .dr1M else if hi = true ∧ lo = true then .dr250K else .dr2M

/-- The pipe number a pipe argument selects: the argument modulo 6 (30_encoding R70; 42_radio_control R128). -/
def pipeIndex (pipe : Byte) : Fin 6 := ⟨pipe.toNat % 6, Nat.mod_lt _ (by decide)⟩

/-- A bit index argument as a bit position, where it is one (60_exceptions R141). -/
def bitPos? (bitIndex : Byte) : Option BitPos :=
  if h : bitIndex.toNat < 8 then some ⟨bitIndex.toNat, h⟩ else none

end Sys2Proof.Machine
end

