-- ==== Sys2Proof/Machine/Flags.lean ====
section
/-! DEFINITION. The bit computations on a register byte (30_encoding R70). The block has NO flags and no condition
codes, and no operation writes one (10_state R32): what stands here are the set, clear and test of one bit of a byte
read from the chip, and the data-rate field of such a byte. -/

namespace Sys2Proof.Machine

/-- Set: `v | mask(i)` (30_encoding R70; 41_register_access R101). -/
def setBitIn (v : Byte) (i : BitPos) : Byte := v ||| mask i

/-- Clear: `v & ~mask(i)` (30_encoding R70; 41_register_access R102). -/
def clearBitIn (v : Byte) (i : BitPos) : Byte := v &&& ~~~(mask i)

/-- Set or clear by a level: the conditional of 42_radio_control R121. -/
def putBitIn (v : Byte) (i : BitPos) (level : Bool) : Byte := if level then setBitIn v i else clearBitIn v i

/-- Test: `(v >> i) & 1` (30_encoding R70; 41_register_access R106). -/
def testBitIn (v : Byte) (i : BitPos) : Bool := (v >>> i.val &&& 1) == 1

/-- The register value that `SDR_ONE_RMW` writes: both bits of the field at once (42_radio_control R121). -/
def putRateIn (v : Byte) (hiBit loBit : BitPos) (hi lo : Bool) : Byte :=
  (v &&& ~~~(mask hiBit ||| mask loBit)) ||| (if hi then mask hiBit else 0) ||| (if lo then mask loBit else 0)

end Sys2Proof.Machine
end

