-- ==== Sys2Proof/Config.lean ====
section
/-! DEFINITION. The configuration: every parameter of 00_scope R7, and the free value of a MISO sample
(20_memory R45). The model fixes none of them: `Config.binding` and `Config.misoDraw` are opaque. -/

namespace Sys2Proof

/-- The transaction form of setDataRate (42_radio_control R121). -/
inductive SdrForm where
  | rmwHiFirst
  | rmwLoFirst
  | oneRmw
deriving DecidableEq, Repr, Inhabited

/-- The transaction form of getDataRate. DEDUCED: three forms (42_radio_control R123), where 00_scope R7 says two
(log entry 14). -/
inductive GdrForm where
  | oneRead
  | readbitHiFirst
  | readbitLoFirst
deriving DecidableEq, Repr, Inhabited

/-- The transaction form of poll's clear (42_radio_control R134). -/
inductive PollClearForm where
  | clearByWrite
  | clearBySetbit
deriving DecidableEq, Repr, Inhabited

/-- One step of INIT_RECIPE: a register-layer operation with its arguments (70_reset_and_hazards R153). DEDUCED: POLL and
SET_RECEIVE_CALLBACK are no recipe steps (log entry 15). -/
inductive RecipeStep where
  | writeRegisterN (addr : Byte) (buf : List Byte)
  | writeRegister (addr : Byte) (value : Byte)
  | writeCommand (cmd : Byte) (data : List Byte)
  | setBit (addr : Byte) (bit : BitPos)
  | clearBit (addr : Byte) (bit : BitPos)
  | powerUp
  | shutDown
  | setModeRX
  | setCh (channel : Byte)
  | setDataRate (rate : DataRate)
  | getDataRate
  | setCRCSize (n : Fin 3)
  | enableDynAck
  | disableDynAck
  | setRxPayloadWidth (pipe : Byte) (width : Byte)
deriving DecidableEq, Repr, Inhabited

/-- The parameters of 00_scope R7 that the source leaves OPEN. -/
structure Params where
  /-- `PIN_SCK` … `PIN_IRQ`. -/
  pins : Pins
  /-- `T_SETTLE`, in microseconds, a lower bound. -/
  tSettle : Nat
  /-- `T_CSN_HIGH_MIN`: read by a slave-side check only (70_reset_and_hazards R162). DESIGN CHOICE: a whole number of
  microseconds, where the spec gives neither unit nor type (log entry 22). -/
  tCsnHighMin : Nat
  regConfig : RegAddr
  bitPwr : BitPos
  bitPrimRx : BitPos
  bitCrcEn : BitPos
  regCh : RegAddr
  regDr : RegAddr
  bitDrHi : BitPos
  bitDrLo : BitPos
  regDynack : RegAddr
  bitDynack : BitPos
  regStatus : RegAddr
  bitRxReady : BitPos
  /-- `RX_PW[0..5]`. -/
  rxPw : Vector RegAddr 6
  sdrForm : SdrForm
  gdrForm : GdrForm
  pollClearForm : PollClearForm
  /-- `INIT_RECIPE`: S1 is entry 0 and S20 is entry 19. -/
  recipe : Vector RecipeStep 20
deriving DecidableEq, Repr, Inhabited

/-- The payload of a step that is one write frame, whichever operation it is: a register or command write, SET_CH
(42_radio_control R119) or SET_RX_PAYLOAD_WIDTH (42_radio_control R128); `none` for a step of another kind (70_reset_and_hazards
R154). -/
def RecipeStep.writePayload : RecipeStep → Option (List Byte)
  | .writeRegisterN _ buf => some buf
  | .writeRegister _ value => some [value]
  | .writeCommand _ data => some data
  | .setCh channel => some [channel]
  | .setRxPayloadWidth _ width => some [width]
  | .setBit _ _ | .clearBit _ _ | .powerUp | .shutDown | .setModeRX | .setDataRate _ | .getDataRate
  | .setCRCSize _ | .enableDynAck | .disableDynAck => none

/-- The step ends with bit `bit` of register `reg` at `level`, on a slave that keeps what is written to it
(70_reset_and_hazards R153, last column of S1, S13 and S20). DEDUCED: the step itself writes the bit, in the first payload
byte of a write frame or as a bit operation (log entry 15). -/
def RecipeStep.endsBit (P : Params) (reg : RegAddr) (bit : BitPos) (level : Bool) : RecipeStep → Bool
  | .writeRegisterN addr (v :: _) =>
    Machine.cmdW addr == Machine.cmdW (Machine.regByte reg) && Machine.testBitIn v bit == level
  | .writeRegisterN _ [] => false
  | .writeRegister addr v =>
    Machine.cmdW addr == Machine.cmdW (Machine.regByte reg) && Machine.testBitIn v bit == level
  | .writeCommand cmd (v :: _) =>
    cmd == Machine.cmdW (Machine.regByte reg) && Machine.testBitIn v bit == level
  | .writeCommand _ [] => false
  | .setBit addr i => level && Machine.cmdW addr == Machine.cmdW (Machine.regByte reg) && i == bit
  | .clearBit addr i => !level && Machine.cmdW addr == Machine.cmdW (Machine.regByte reg) && i == bit
  | .powerUp => level && reg == P.regConfig && bit == P.bitPwr
  | .shutDown => !level && reg == P.regConfig && bit == P.bitPwr
  | .setModeRX => level && reg == P.regConfig && bit == P.bitPrimRx
  | .setCh channel => reg == P.regCh && Machine.testBitIn channel bit == level
  | .setDataRate rate =>
    reg == P.regDr && ((bit == P.bitDrHi && (Machine.rateCode rate).1 == level)
      || (bit == P.bitDrLo && (Machine.rateCode rate).2 == level))
  | .getDataRate => false
  | .setCRCSize n =>
    reg == P.regConfig && bit == P.bitCrcEn && ((n == 0 && !level) || (n == 2 && level))
  | .enableDynAck => level && reg == P.regDynack && bit == P.bitDynack
  | .disableDynAck => !level && reg == P.regDynack && bit == P.bitDynack
  | .setRxPayloadWidth pipe width =>
    reg == P.rxPw[Machine.pipeIndex pipe] && Machine.testBitIn width bit == level

/-- The payload lengths of the calibration blocks S4 to S9 (70_reset_and_hazards R153, R154). -/
def calibrationLengths : List Nat := [5, 5, 3, 1, 6, 3]

/-- The payload of S17 (70_reset_and_hazards R154). -/
def pipeAddress17 : List Byte := [0xA7, 0x93, 0xB4, 0x55, 0xAA]

/-- The payload of S18 (70_reset_and_hazards R154). -/
def pipeAddress18 : List Byte := [0x81, 0xC6, 0xB2, 0xAA, 0x55]

/-- What the source fixes of INIT_RECIPE (70_reset_and_hazards R153 to R155): S1 ends with the power bit 1, S4 to S9 are
write frames of the given lengths, S13 ends with the data-rate field (0,0), S17 and S18 send the fixed addresses, S20
ends with the PRIM_RX bit 1, and no step before S20 drives CE. -/
def Params.recipeOk (P : Params) : Bool :=
  P.recipe[0].endsBit P P.regConfig P.bitPwr true
  && ((P.recipe.toList.drop 3).take 6).map (fun st => st.writePayload.map List.length)
      == calibrationLengths.map some
  && P.recipe[12].endsBit P P.regDr P.bitDrHi false && P.recipe[12].endsBit P P.regDr P.bitDrLo false
  && P.recipe[16].writePayload == some pipeAddress17
  && P.recipe[17].writePayload == some pipeAddress18
  && P.recipe[19].endsBit P P.regConfig P.bitPrimRx true
  && (P.recipe.toList.take 19).all (fun st => st != .setModeRX)

/-- The laws of the parameters: distinct pins and a settle delay of at least 1 µs (00_scope R7), distinct bits within
one register (42_radio_control R113), and the fixed part of the recipe. -/
def Params.wf (P : Params) : Bool :=
  P.pins.distinct && decide (1 ≤ P.tSettle)
  && P.bitPwr != P.bitPrimRx && P.bitPwr != P.bitCrcEn && P.bitPrimRx != P.bitCrcEn && P.bitDrHi != P.bitDrLo
  && P.recipeOk

/-- The example binding EB of 95_test_vectors with the recipe instance of its program P4, the addresses and OPEN payloads
of which are chosen here. It is a test device: it shows that well-formed parameters exist, and no parameter of the machine
is known to equal it. -/
def exampleBinding : Params where
  pins := { sck := 0, miso := 1, mosi := 2, csn := 3, ce := 4, irq := 5 }
  tSettle := 1
  tCsnHighMin := 0
  regConfig := 0x00
  bitPwr := 1
  bitPrimRx := 0
  bitCrcEn := 3
  regCh := 0x05
  regDr := 0x06
  bitDrHi := 5
  bitDrLo := 3
  regDynack := 0x1D
  bitDynack := 0
  regStatus := 0x07
  bitRxReady := 6
  rxPw := #v[0x11, 0x12, 0x13, 0x14, 0x15, 0x16]
  sdrForm := .oneRmw
  gdrForm := .oneRead
  pollClearForm := .clearByWrite
  recipe := #v[.powerUp, .writeRegisterN 0x07 [0x70], .writeRegisterN 0x08 [0x00],
    .writeRegisterN 0x09 [1, 2, 3, 4, 5], .writeRegisterN 0x0B [1, 2, 3, 4, 5], .writeRegisterN 0x0C [1, 2, 3],
    .writeRegisterN 0x0D [1], .writeRegisterN 0x0E [1, 2, 3, 4, 5, 6], .writeRegisterN 0x0F [1, 2, 3],
    .writeRegisterN 0x01 [0x3F], .writeRegisterN 0x04 [0x03], .writeRegisterN 0x03 [0x03], .setDataRate .dr1M,
    .writeRegisterN 0x11 [0x20], .writeRegisterN 0x12 [0x20], .writeRegisterN 0x1C [0x00],
    .writeRegisterN 0x0A pipeAddress17, .writeRegisterN 0x10 pipeAddress18, .writeRegisterN 0x05 [0x02],
    .setBit 0x00 0]

/-- Parameters that obey their laws. -/
structure Binding where
  params : Params := exampleBinding
  wf : params.wf = true := by decide
deriving Inhabited

/-- The parameters of the machine. OPEN: nothing in Lean can evaluate them; only their laws are known (00_scope R7, log
entry 1). -/
opaque Config.binding : Binding

/-- The parameters the meanings read. -/
def Config.params : Params := Config.binding.params

/-- The level the slave drives at the `n`-th MISO sample. A free value: a draw under no law (20_memory R45, log entry
2). -/
opaque Config.misoDraw (n : Nat) : Level

end Sys2Proof
end

