-- ==== Sys2Proof/WellFormed.lean ====
section
/-! DEFINITION. Well-formed instructions: those whose arguments the spec gives a meaning (30_encoding R74, R75;
60_exceptions R140). An ill-formed request still decodes, because the model must refuse it BY NAME, and in the order of
60_exceptions R147. -/

namespace Sys2Proof

/-- The argument checks of 60_exceptions R140: a bit index of at most 7 (R141), a CRC size of at most 2 (R142), a write
buffer no shorter than its length (30_encoding R74), pin identifiers that are distinct (R144). -/
def Instr.wellFormed : Instr → Bool
  | .setb _ bitIndex | .clrb _ bitIndex | .rbit _ bitIndex => decide (bitIndex.toNat ≤ 7)
  | .crc n => decide (n.toNat ≤ 2)
  | .wregn _ buf len => decide (len ≤ buf.length)
  | .beginPins (some pins) => pins.distinct
  | .beginPins none => true
  | .xfer _ | .wcmd _ _ | .rregn _ _ | .rreg _ | .wreg _ _ | .rplw | .rpl _ | .pwrup | .pwrdn | .rxmode | .ch _
  | .dr _ | .gdr | .dynackOn | .dynackOff | .plw _ _ | .onrx _ | .poll | .cmdReadRegister _ _
  | .cmdWriteRegister _ _ | .cmdReadRxPayloadWidth | .cmdReadRxPayload _ => true

end Sys2Proof
end

