-- ==== Sys2Proof/Decode.lean ====
section
/-! DEFINITION. The decoder and the encoder. The spec gives a request its ordinal only (30_encoding R73) and a wire
command its first byte (30_encoding R62 to R66). DESIGN CHOICE: the operand bytes that follow are the model's own
serialisation of the argument types of 30_encoding R74, and appear on no wire (log entry 7). -/

namespace Sys2Proof

/-- Why bytes are no instruction. -/
inductive DecodeError where
  /-- The bytes end before the instruction does. -/
  | truncated
  /-- The first byte is the ordinal of no request of 30_encoding R73. -/
  | unknownOrdinal (b : Byte)
  /-- The first byte is none of the four command forms of 30_encoding R66. -/
  | unlistedCommand (b : Byte)
  /-- A byte that selects among the alternatives of an operand selects none. -/
  | badTag (b : Byte)
  /-- A natural number is written with more bytes than it needs. -/
  | overlongNumber
  /-- Bytes are left after the instruction. -/
  | trailingBytes
deriving DecidableEq, Repr

/-- A parsed value with the bytes after it, or the reason there is none. -/
abbrev Parsed (α : Type) := Except DecodeError (α × List Byte)

/-! ### Operand serialisation -/

/-- A natural number as bytes of 7 bits each, least significant first, bit 7 set on all but the last; `fuel` bounds the
number of bytes. -/
def encodeNatFuel : Nat → Nat → List Byte
  | 0, _ => []
  | fuel + 1, n =>
    if n < 128 then [BitVec.ofNat 8 n] else BitVec.ofNat 8 (128 + n % 128) :: encodeNatFuel fuel (n / 128)

/-- A natural number as bytes. -/
def encodeNat (n : Nat) : List Byte := encodeNatFuel (n + 1) n

/-- A byte list as its length and then its bytes. -/
def encodeBytes (l : List Byte) : List Byte := encodeNat l.length ++ l

/-- A handler slot: 0 for absent, 1 and the handle for a handler. -/
def encodeHandler : Option Handler → List Byte
  | none => [0]
  | some h => 1 :: encodeNat h

/-- A data rate: 0, 1, 2 in the order of 00_scope R8. -/
def encodeRate : DataRate → List Byte
  | .dr1M => [0]
  | .dr2M => [1]
  | .dr250K => [2]

/-- The pins of a `begin`: 0 for the model's pin parameters (30_encoding R77), 1 and six identifiers otherwise. -/
def encodePins : Option Pins → List Byte
  | none => [0]
  | some p => 1 :: (encodeNat p.sck ++ encodeNat p.miso ++ encodeNat p.mosi ++ encodeNat p.csn ++ encodeNat p.ce
      ++ encodeNat p.irq)

/-- Goes on with a parsed value and the bytes after it; an error stays the error it is. -/
def andThen {α β : Type} (x : Parsed α) (k : α → List Byte → Parsed β) : Parsed β :=
  match x with
  | .error e => .error e
  | .ok (a, rest) => k a rest

/-- Reads one byte. -/
def takeByte : List Byte → Parsed Byte
  | [] => .error .truncated
  | b :: rest => .ok (b, rest)

/-- Reads a natural number; a last byte of 0 after another byte is refused, so that each number has one spelling. -/
def takeNat : List Byte → Parsed Nat
  | [] => .error .truncated
  | b :: rest =>
    if b.toNat < 128 then .ok (b.toNat, rest)
    else
      match takeNat rest with
      | .error e => .error e
      | .ok (0, _) => .error .overlongNumber
      | .ok (m + 1, rest') => .ok (b.toNat - 128 + 128 * (m + 1), rest')

/-- Reads a byte list. -/
def takeBytes (bs : List Byte) : Parsed (List Byte) :=
  andThen (takeNat bs) fun n bs => if n ≤ bs.length then .ok (bs.take n, bs.drop n) else .error .truncated

/-- Reads a handler slot. -/
def takeHandler (bs : List Byte) : Parsed (Option Handler) :=
  andThen (takeByte bs) fun b bs =>
    match b.toNat with
    | 0 => .ok (none, bs)
    | 1 => andThen (takeNat bs) fun h bs => .ok (some h, bs)
    | _ => .error (.badTag b)

/-- Reads a data rate. -/
def takeRate (bs : List Byte) : Parsed DataRate :=
  andThen (takeByte bs) fun b bs =>
    match b.toNat with
    | 0 => .ok (.dr1M, bs)
    | 1 => .ok (.dr2M, bs)
    | 2 => .ok (.dr250K, bs)
    | _ => .error (.badTag b)

/-- Reads six pin identifiers. -/
def takeSixPins (bs : List Byte) : Parsed Pins :=
  andThen (takeNat bs) fun sck bs =>
  andThen (takeNat bs) fun miso bs =>
  andThen (takeNat bs) fun mosi bs =>
  andThen (takeNat bs) fun csn bs =>
  andThen (takeNat bs) fun ce bs =>
  andThen (takeNat bs) fun irq bs => .ok ({ sck, miso, mosi, csn, ce, irq }, bs)

/-- Reads the pins of a `begin`. -/
def takePins (bs : List Byte) : Parsed (Option Pins) :=
  andThen (takeByte bs) fun b bs =>
    match b.toNat with
    | 0 => .ok (none, bs)
    | 1 => andThen (takeSixPins bs) fun p bs => .ok (some p, bs)
    | _ => .error (.badTag b)

/-! ### Host requests -/

/-- Two operands of one byte each. -/
def takeTwoBytes (mk : Byte → Byte → Instr) (bs : List Byte) : Parsed Instr :=
  andThen (takeByte bs) fun a bs => andThen (takeByte bs) fun b bs => .ok (mk a b, bs)

/-- The operands of the request with a given ordinal (30_encoding R73, R74). -/
def decodeOperands (ordinal : Byte) (bs : List Byte) : Parsed Instr :=
  match ordinal.toNat with
  | 0 => andThen (takeByte bs) fun out bs => .ok (.xfer out, bs)
  | 1 => andThen (takeByte bs) fun cmd bs => andThen (takeBytes bs) fun data bs => .ok (.wcmd cmd data, bs)
  | 2 => andThen (takeByte bs) fun addr bs => andThen (takeNat bs) fun len bs => .ok (.rregn addr len, bs)
  | 3 => andThen (takeByte bs) fun addr bs => .ok (.rreg addr, bs)
  | 4 => andThen (takeByte bs) fun addr bs => andThen (takeBytes bs) fun buf bs =>
      andThen (takeNat bs) fun len bs => .ok (.wregn addr buf len, bs)
  | 5 => takeTwoBytes .wreg bs
  | 6 => takeTwoBytes .setb bs
  | 7 => takeTwoBytes .clrb bs
  | 8 => takeTwoBytes .rbit bs
  | 9 => .ok (.rplw, bs)
  | 10 => andThen (takeNat bs) fun len bs => .ok (.rpl len, bs)
  | 11 => .ok (.pwrup, bs)
  | 12 => .ok (.pwrdn, bs)
  | 13 => .ok (.rxmode, bs)
  | 14 => andThen (takeByte bs) fun channel bs => .ok (.ch channel, bs)
  | 15 => andThen (takeRate bs) fun rate bs => .ok (.dr rate, bs)
  | 16 => .ok (.gdr, bs)
  | 17 => andThen (takeByte bs) fun n bs => .ok (.crc n, bs)
  | 18 => .ok (.dynackOn, bs)
  | 19 => .ok (.dynackOff, bs)
  | 20 => takeTwoBytes .plw bs
  | 21 => andThen (takeHandler bs) fun handler bs => .ok (.onrx handler, bs)
  | 22 => .ok (.poll, bs)
  | 23 => andThen (takePins bs) fun pins bs => .ok (.beginPins pins, bs)
  | _ => .error (.unknownOrdinal ordinal)

/-- A request at the front of some bytes, with the bytes after it. -/
def takeRequest : List Byte → Parsed Instr
  | [] => .error .truncated
  | ordinal :: bs => decodeOperands ordinal bs

/-! ### Wire commands -/

/-- What a bus monitor reads in a command byte (30_encoding R66). -/
inductive CommandForm where
  | readRegister (a : RegAddr)
  | writeRegister (a : RegAddr)
  | readPayloadWidth
  | readPayload
  | unlisted
deriving DecidableEq, Repr

/-- The decoding of a command byte (30_encoding R66). -/
def commandForm (c : Byte) : CommandForm :=
  if c.extractLsb' 5 3 = 0b000#3 then .readRegister (c.extractLsb' 0 5)
  else if c.extractLsb' 5 3 = 0b001#3 then .writeRegister (c.extractLsb' 0 5)
  else if c = 0x60 then .readPayloadWidth
  else if c = 0x61 then .readPayload
  else .unlisted

/-- A wire command at the front of some bytes: the command byte, then the payload its frame carries (a length for the
reads whose length the caller supplies, the bytes for a write). -/
def takeCommand : List Byte → Parsed Instr
  | [] => .error .truncated
  | c :: bs =>
    match commandForm c with
    | .readRegister a => andThen (takeNat bs) fun len bs => .ok (.cmdReadRegister a len, bs)
    | .writeRegister a => andThen (takeBytes bs) fun data bs => .ok (.cmdWriteRegister a data, bs)
    | .readPayloadWidth => .ok (.cmdReadRxPayloadWidth, bs)
    | .readPayload => andThen (takeNat bs) fun len bs => .ok (.cmdReadRxPayload len, bs)
    | .unlisted => .error (.unlistedCommand c)

/-- An instruction of a format at the front of some bytes. -/
def takeInstr : Format → List Byte → Parsed Instr
  | .hostop => takeRequest
  | .cmd8 => takeCommand

/-- The instruction some bytes are, the whole of them. -/
def decode (f : Format) (bs : List Byte) : Except DecodeError Instr :=
  match takeInstr f bs with
  | .error e => .error e
  | .ok (i, []) => .ok i
  | .ok (_, _ :: _) => .error .trailingBytes

/-! ### The encoder -/

/-- The ordinal of a request (30_encoding R73); a wire command form is no request and has none. -/
def Instr.ordinal? : Instr → Option Nat
  | .xfer _ => some 0
  | .wcmd _ _ => some 1
  | .rregn _ _ => some 2
  | .rreg _ => some 3
  | .wregn _ _ _ => some 4
  | .wreg _ _ => some 5
  | .setb _ _ => some 6
  | .clrb _ _ => some 7
  | .rbit _ _ => some 8
  | .rplw => some 9
  | .rpl _ => some 10
  | .pwrup => some 11
  | .pwrdn => some 12
  | .rxmode => some 13
  | .ch _ => some 14
  | .dr _ => some 15
  | .gdr => some 16
  | .crc _ => some 17
  | .dynackOn => some 18
  | .dynackOff => some 19
  | .plw _ _ => some 20
  | .onrx _ => some 21
  | .poll => some 22
  | .beginPins _ => some 23
  | .cmdReadRegister _ _ | .cmdWriteRegister _ _ | .cmdReadRxPayloadWidth | .cmdReadRxPayload _ => none

/-- The bytes of an instruction: the ordinal or the command byte, then the operands. -/
def encode : Instr → List Byte
  | .xfer out => [0, out]
  | .wcmd cmd data => 1 :: cmd :: encodeBytes data
  | .rregn addr len => 2 :: addr :: encodeNat len
  | .rreg addr => [3, addr]
  | .wregn addr buf len => 4 :: addr :: (encodeBytes buf ++ encodeNat len)
  | .wreg addr value => [5, addr, value]
  | .setb addr bitIndex => [6, addr, bitIndex]
  | .clrb addr bitIndex => [7, addr, bitIndex]
  | .rbit addr bitIndex => [8, addr, bitIndex]
  | .rplw => [9]
  | .rpl len => 10 :: encodeNat len
  | .pwrup => [11]
  | .pwrdn => [12]
  | .rxmode => [13]
  | .ch channel => [14, channel]
  | .dr rate => 15 :: encodeRate rate
  | .gdr => [16]
  | .crc n => [17, n]
  | .dynackOn => [18]
  | .dynackOff => [19]
  | .plw pipe width => [20, pipe, width]
  | .onrx handler => 21 :: encodeHandler handler
  | .poll => [22]
  | .beginPins pins => 23 :: encodePins pins
  | .cmdReadRegister a len => Machine.cmdR (Machine.regByte a) :: encodeNat len
  | .cmdWriteRegister a data => Machine.cmdW (Machine.regByte a) :: encodeBytes data
  | .cmdReadRxPayloadWidth => [Machine.cmdPayloadWidth]
  | .cmdReadRxPayload len => Machine.cmdPayload :: encodeNat len

/-! ### The opcode table's words -/

/-- The bytes of a word of `n` bytes, the first the least significant. -/
def wordBytes : Nat → Nat → List Byte
  | 0, _ => []
  | n + 1, w => BitVec.ofNat 8 w :: wordBytes n (w / 256)

/-- The bytes of a table word followed by more zero bytes than the longest instruction with zero operands has. -/
def tableBytes (nbits w : Nat) : List Byte := wordBytes ((nbits + 7) / 8) w ++ List.replicate 16 0

/-- The format a table word is read in: a host request where its first byte is an ordinal, a wire command otherwise.
DESIGN CHOICE: bytes 0x00 to 0x17 are both an ordinal and a register-read command byte, and read as the request here
(log entry 10). -/
def tableFormat (nbits w : Nat) : Format :=
  match takeRequest (tableBytes nbits w) with
  | .ok _ => .hostop
  | .error _ => .cmd8

/-- The instruction a table word is, with operand bytes of zero above `nbits`. -/
def decodeTableWord (nbits w : Nat) : Option Instr :=
  match takeInstr (tableFormat nbits w) (tableBytes nbits w) with
  | .ok (i, _) => some i
  | .error _ => none

/-- The bytes of that instruction, without the zero bytes after it. -/
def tableWordBytes (nbits w : Nat) : List Byte :=
  match takeInstr (tableFormat nbits w) (tableBytes nbits w) with
  | .ok (_, rest) => (tableBytes nbits w).take ((tableBytes nbits w).length - rest.length)
  | .error _ => tableBytes nbits w

end Sys2Proof
end

