-- ==== Sys2Proof/Machine/State.lean ====
section
/-! DEFINITION. The state of the block (10_state R20), the events of its trace (00_scope R15), what the host may send
it (70_reset_and_hazards R173), its reset (10_state R36), and the reasons a step can stop (60_exceptions R138, R140). -/

namespace Sys2Proof.Machine

/-- The direction of a pin (00_scope R11). -/
inductive Dir where
  | input
  | output
deriving DecidableEq, Repr

/-- The six signal roles (30_encoding R61). -/
inductive Role where
  | sck
  | miso
  | mosi
  | csn
  | ce
  | irq
deriving DecidableEq, Repr

/-- The output pins, which `PinWrite` drives (00_scope R11; 10_state R24). -/
inductive OutPin where
  | sck
  | mosi
  | csn
  | ce
deriving DecidableEq, Repr

/-- The input pins, which `PinRead` samples (00_scope R11; 10_state R25). -/
inductive InPin where
  | miso
  | irq
deriving DecidableEq, Repr

/-- The direction given to each bound pin (10_state R23). -/
structure Dirs where
  sck : Dir
  miso : Dir
  mosi : Dir
  csn : Dir
  ce : Dir
  irq : Dir
deriving DecidableEq, Repr

/-- A value returned to the host (00_scope R15; 41_register_access R111). -/
inductive Result where
  | byte (v : Byte)
  | bytes (l : List Byte)
  | bit (b : Bool)
  | rate (r : DataRate)
deriving DecidableEq, Repr

/-- The events of a trace (00_scope R15). A pin is named by its role; `hostCalls` gives the handle bound to it (log
entry 4). -/
inductive Event where
  /-- `DIR(p, d)`. -/
  | dir (p : Role) (d : Dir)
  /-- `SET(p, l)`. -/
  | set (p : OutPin) (l : Level)
  /-- `GET(p) = v`. -/
  | get (p : InPin) (v : Level)
  /-- `WAIT(t)`, a lower bound in microseconds (00_scope R12). -/
  | wait (t : Nat)
  /-- `NOTIFY`, the hand-off to the receive handler `h` (42_radio_control R133). -/
  | notify (h : Handler)
  /-- `RESULT(v)`. -/
  | result (v : Result)
deriving DecidableEq, Repr

/-- What the host sends the block, one item at a time (70_reset_and_hazards R173; log entry 6). -/
inductive HostInput where
  /-- A request of 30_encoding R73, issued after the one before it has returned. -/
  | request (bytes : List Byte)
  /-- A request that a second execution context issues while the one before it is still running (60_exceptions R143). -/
  | overlap (bytes : List Byte)
  /-- A wire command form as an instruction of its own (30_encoding R62 to R65; log entry 9). -/
  | command (bytes : List Byte)
  /-- The return of the receive handler of the innermost NOTIFY window (42_radio_control R133). -/
  | handlerReturn
deriving DecidableEq, Repr

/-- The state of the block. `misoIn`, `drawn` and `inbox` are the model's own fields: they hold the slave and the host
as plain data. -/
structure State where
  /-- The pin binding, absent before begin (10_state R21). -/
  pins : Option Pins
  /-- 1 once begin has bound the pins (10_state R22). -/
  bound : Bool
  /-- The directions of the pins (10_state R23). -/
  dir : Dirs
  /-- The level last driven on SCK (10_state R24). -/
  sck : Level
  /-- The level last driven on MOSI (10_state R24). -/
  mosi : Level
  /-- The level last driven on CSN (10_state R24); the block is in a frame exactly when it is low (10_state R28). -/
  csn : Level
  /-- The level last driven on CE (10_state R24). -/
  ce : Level
  /-- The outgoing shift register (10_state R26). -/
  tx : Byte
  /-- The incoming accumulator (10_state R26). -/
  rx : Byte
  /-- The bit cells done in the current transfer, 0 to 8 (10_state R26). -/
  bitcnt : Nat
  /-- An operation is running (10_state R29). -/
  busy : Bool
  /-- The registered receive handler (10_state R30). -/
  rxHandler : Option Handler
  /-- The index of the next event of the running operation (10_state R27). -/
  pc : Nat
  /-- The polls suspended at NOTIFY, innermost first, each with its `pc` (42_radio_control R133; 60_exceptions R148). -/
  windows : List Nat
  /-- The events recorded so far, oldest first (00_scope R15). -/
  trace : List Event
  /-- The levels the slave will drive at the coming MISO samples; after them every sample is a free draw (20_memory R45,
  log entry 2). -/
  misoIn : List Level
  /-- The number of MISO samples taken (log entry 2). -/
  drawn : Nat
  /-- What the host will send, oldest first (log entry 6). -/
  inbox : List HostInput
deriving DecidableEq, Repr

/-- The block before begin (10_state R36). The spec gives `pins`, `bound`, `busy` and `rxHandler`; the other values are
the model's (log entries 2 to 6 and 12). -/
def State.reset : State where
  pins := none
  bound := false
  dir := { sck := .input, miso := .input, mosi := .input, csn := .input, ce := .input, irq := .input }
  sck := false
  mosi := false
  csn := true
  ce := false
  tx := 0
  rx := 0
  bitcnt := 0
  busy := false
  rxHandler := none
  pc := 0
  windows := []
  trace := []
  misoIn := []
  drawn := 0
  inbox := []

/-- Why the block stops with a fault. A fault is final (60_exceptions R139): no state follows it. -/
inductive Fault where
  /-- NOT_BOUND, with the request's ordinal: raised by every request but BEGIN and SET_RECEIVE_CALLBACK while unbound
  (60_exceptions R138). Safe: no claim about such a run can be proved. -/
  | notBound (ordinal : Nat)
  /-- A wire command, which is no request and has no ordinal, while unbound; raised by the four command forms (log entry 9).
  Safe: it stops where the host would drive unbound pins. -/
  | notBoundCommand (cmd : Byte)
deriving DecidableEq, Repr

/-- Why the block gives a request no meaning (60_exceptions R140). A refused run has no next state. -/
inductive Refusal where
  /-- No meaning in the model yet; raised by exec's own arms only. Safe. -/
  | notModelled (mnemonic : String)
  /-- REFUSE_BIT_INDEX, raised by SET_BIT, CLEAR_BIT and READ_BIT with a bit index above 7 (60_exceptions R141). Safe. -/
  | bitIndex
  /-- REFUSE_CRC_SIZE, raised by SET_CRC_SIZE with a size above 2 (60_exceptions R142). Safe. -/
  | crcSize
  /-- REFUSE_CONCURRENT, raised by any instruction while an operation runs outside a NOTIFY window (60_exceptions R143).
  Safe. -/
  | concurrent
  /-- REFUSE_REBEGIN, raised by BEGIN when bound (60_exceptions R144). Safe. -/
  | rebegin
  /-- REFUSE_PIN_ALIAS, raised by BEGIN when two roles share a pin (60_exceptions R144). Safe. -/
  | pinAlias
  /-- REFUSE_UNFRAMED, raised by TRANSFER_BYTE outside a frame (60_exceptions R145). Safe. -/
  | unframed
  /-- REFUSE_SHORT_BUFFER, raised by WRITE_REGISTER_N when the buffer is shorter than the length (30_encoding R74). Safe. -/
  | shortBuffer
  /-- REFUSE_UNKNOWN, raised by the fetch when the bytes are no request of 30_encoding R73, or no command form
  (60_exceptions R140). Safe. -/
  | unknown (why : DecodeError)
  /-- A handler's return with no NOTIFY window open, raised by the step: no interaction of 70_reset_and_hazards R173 (log entry 12).
  Safe. -/
  | noOpenWindow
deriving DecidableEq, Repr

end Sys2Proof.Machine
end

