-- ==== Sys2Proof/Machine/Ops.lean ====
section
/-! DEFINITION. The shared operations: the pin primitives (00_scope R11, R12), the byte transfer and the frame (40_transport
R82 to R92), the register layer (41_register_access R97 to R106), the start, end and admission of a request (10_state
R29; 60_exceptions R147), and begin's pin initialisation (70_reset_and_hazards R152). The block has no exception entry and
no return (60_exceptions R148): the one hand-off, poll's NOTIFY, is in Machine/Receive.lean.

`T` is `T_SETTLE` throughout. -/

namespace Sys2Proof.Machine

/-- How a step or an instruction ends. -/
abbrev Outcome := Host.Outcome State Fault Refusal

/-! ### Events and pin primitives -/

/-- Records one event and moves on in the operation's event sequence (00_scope R15; 10_state R27). -/
def record (e : Event) (s : State) : State := { s with trace := s.trace ++ [e], pc := s.pc + 1 }

/-- The latch of an output pin takes a level; no other latch changes (10_state R24). -/
def setLatch (p : OutPin) (l : Level) (s : State) : State :=
  match p with
  | .sck => { s with sck := l }
  | .mosi => { s with mosi := l }
  | .csn => { s with csn := l }
  | .ce => { s with ce := l }

/-- The direction of one pin. -/
def setDir (p : Role) (d : Dir) (s : State) : State :=
  match p with
  | .sck => { s with dir := { s.dir with sck := d } }
  | .miso => { s with dir := { s.dir with miso := d } }
  | .mosi => { s with dir := { s.dir with mosi := d } }
  | .csn => { s with dir := { s.dir with csn := d } }
  | .ce => { s with dir := { s.dir with ce := d } }
  | .irq => { s with dir := { s.dir with irq := d } }

/-- `PinDir(p, d)` (00_scope R11). -/
def pinDir (p : Role) (d : Dir) (s : State) : State := record (.dir p d) (setDir p d s)

/-- `PinWrite(p, l)` (00_scope R11). -/
def pinWrite (p : OutPin) (l : Level) (s : State) : State := record (.set p l) (setLatch p l s)

/-- The level MISO will have at the `k`-th coming sample, counted from 0: the listed level, or the free draw where none
is listed (20_memory R45, log entry 2). -/
def sample (s : State) (k : Nat) : Level := (s.misoIn[k]?).getD (Config.misoDraw (s.drawn + k))

/-- `PinRead(MISO)` (00_scope R11; 10_state R25). IRQ is never read, so no other pin has a read. -/
def pinReadMiso (s : State) : Level × State :=
  (sample s 0, record (.get .miso (sample s 0)) { s with misoIn := s.misoIn.drop 1, drawn := s.drawn + 1 })

/-- `Wait(t)` (00_scope R12). -/
def wait (t : Nat) (s : State) : State := record (.wait t) s

/-! ### Transfers and frames -/

/-- One bit cell (40_transport R83). -/
def bitCell (T : Nat) (s : State) : State :=
  let s := pinWrite .mosi (s.tx.getLsbD 0) s
  let s := { s with tx := s.tx >>> 1 }
  let s := wait T s
  let s := pinWrite .sck true s
  let (q, s) := pinReadMiso s
  let s := { s with rx := s.rx <<< 1 ||| (if q then 1 else 0) }
  let s := wait T s
  let s := pinWrite .sck false s
  let s := wait T s
  { s with bitcnt := s.bitcnt + 1 }

/-- `n` bit cells. -/
def bitCells (T : Nat) : Nat → State → State
  | 0, s => s
  | n + 1, s => bitCells T n (bitCell T s)

/-- `Transfer(out)` (40_transport R82). -/
def transfer (T : Nat) (out : Byte) (s : State) : Byte × State :=
  let s := bitCells T 8 { s with tx := rev8 out, rx := 0, bitcnt := 0 }
  (s.rx, s)

/-- The payload transfers of a frame, with the bytes sampled (40_transport R88). -/
def payload (T : Nat) : List Byte → State → List Byte × State
  | [], s => ([], s)
  | b :: bs, s =>
    let (r, s) := transfer T b s
    let (rs, s) := payload T bs s
    (r :: rs, s)

/-- `Frame(cmd, tx)` (40_transport R88); the byte sampled during the command is discarded (40_transport R92). -/
def frame (T : Nat) (cmd : Byte) (data : List Byte) (s : State) : List Byte × State :=
  let s := pinWrite .csn false s
  let (_, s) := transfer T cmd s
  let (rx, s) := payload T data s
  (rx, pinWrite .csn true s)

/-- `MemRead(cmd, n)`: a frame of `n` zero bytes (40_transport R91). -/
def memRead (T : Nat) (cmd : Byte) (n : Nat) (s : State) : List Byte × State := frame T cmd (List.replicate n 0) s

/-- `MemWrite(cmd, n, data)`: a frame whose sampled bytes are discarded (40_transport R89, R92). -/
def memWrite (T : Nat) (cmd : Byte) (data : List Byte) (s : State) : State := (frame T cmd data s).2

/-! ### The register layer -/

/-- readRegister of one byte (41_register_access R98). -/
def readRegister (T : Nat) (addr : Byte) (s : State) : Byte × State :=
  let (l, s) := memRead T (cmdR addr) 1 s
  (l.headD 0, s)

/-- writeRegister of one byte (41_register_access R100). -/
def writeRegister (T : Nat) (addr value : Byte) (s : State) : State := memWrite T (cmdW addr) [value] s

/-- A read-modify-write: a read frame, then a write frame of the changed byte (41_register_access R101 to R103). -/
def rmw (T : Nat) (addr : Byte) (f : Byte → Byte) (s : State) : State :=
  let (v, s) := readRegister T addr s
  writeRegister T addr (f v) s

/-- setBit (41_register_access R101). -/
def setBit (T : Nat) (addr : Byte) (i : BitPos) (s : State) : State := rmw T addr (setBitIn · i) s

/-- clearBit (41_register_access R102). -/
def clearBit (T : Nat) (addr : Byte) (i : BitPos) (s : State) : State := rmw T addr (clearBitIn · i) s

/-- readBit (41_register_access R106). -/
def readBit (T : Nat) (addr : Byte) (i : BitPos) (s : State) : Bool × State :=
  let (v, s) := readRegister T addr s
  (testBitIn v i, s)

/-! ### A request: admission, start, result, end -/

/-- The start of an operation: the block is busy and the event index is 0 (10_state R27, R29). -/
def enter (s : State) : State := { s with busy := true, pc := 0 }

/-- The end of an operation: the block is no longer busy (10_state R29). -/
def complete (s : State) : Outcome := .next { s with busy := false }

/-- The last event of an operation that returns a value (00_scope R15). -/
def respond (r : Result) (s : State) : State := record (.result r) s

/-- REFUSE_CONCURRENT comes before every other outcome of a known request (60_exceptions R147 item 2). -/
def ifIdle (s : State) (k : Outcome) : Outcome := if s.busy then .refused .concurrent else k

/-- The checks that every request but BEGIN and SET_RECEIVE_CALLBACK makes before its own: not concurrent, then bound
(60_exceptions R138, R147 items 2 and 3). -/
def whenReady (ordinal : Nat) (s : State) (k : Outcome) : Outcome :=
  ifIdle s (if s.bound then k else .fault (.notBound ordinal))

/-- The same checks for a wire command, which has no ordinal (log entry 9). -/
def whenReadyCommand (cmd : Byte) (s : State) (k : Outcome) : Outcome :=
  ifIdle s (if s.bound then k else .fault (.notBoundCommand cmd))

/-- REFUSE_BIT_INDEX for a bit index above 7 (60_exceptions R141). -/
def withBitPos (bitIndex : Byte) (k : BitPos → Outcome) : Outcome :=
  match bitPos? bitIndex with
  | some i => k i
  | none => .refused .bitIndex

/-! ### Pin initialisation -/

/-- `PinInit()`: each level is set before the pin becomes an output (70_reset_and_hazards R152). -/
def pinInit (s : State) : State :=
  let s := pinDir .csn .output (pinWrite .csn true s)
  let s := pinDir .sck .output (pinWrite .sck false s)
  let s := pinDir .mosi .output (pinWrite .mosi false s)
  let s := pinDir .ce .output (pinWrite .ce false s)
  let s := pinDir .miso .input s
  pinDir .irq .input s

/-! ### The host's side of a trace -/

/-- The calls on the host's collaborator surface, with host pin identifiers (00_scope R11). -/
inductive HostCall where
  | setDirection (pin : PinId) (d : Dir)
  | writeLevel (pin : PinId) (l : Level)
  | readLevel (pin : PinId) (answer : Level)
  | sleep (microseconds : Nat)
deriving DecidableEq, Repr

/-- The pin bound to a role (10_state R21). -/
def pinOf (p : Pins) : Role → PinId
  | .sck => p.sck
  | .miso => p.miso
  | .mosi => p.mosi
  | .csn => p.csn
  | .ce => p.ce
  | .irq => p.irq

/-- The role of an output pin. -/
def outRole : OutPin → Role
  | .sck => .sck
  | .mosi => .mosi
  | .csn => .csn
  | .ce => .ce

/-- The role of an input pin. -/
def inRole : InPin → Role
  | .miso => .miso
  | .irq => .irq

/-- The host call an event is, on the bound pins; NOTIFY and RESULT are none. -/
def hostCall (p : Pins) : Event → Option HostCall
  | .dir r d => some (.setDirection (pinOf p r) d)
  | .set o l => some (.writeLevel (pinOf p (outRole o)) l)
  | .get i v => some (.readLevel (pinOf p (inRole i)) v)
  | .wait t => some (.sleep t)
  | .notify _ => none
  | .result _ => none

/-- The calls the block has made on its host, in trace order (70_reset_and_hazards R173). -/
def hostCalls (s : State) : List HostCall :=
  match s.pins with
  | some p => s.trace.filterMap (hostCall p)
  | none => []

end Sys2Proof.Machine
end

