-- ==== Sys2Proof/Machine/Radio.lean ====
section
/-! DEFINITION. The radio control family (42_radio_control R115 to R128). Each operation takes the parameters as an
argument (00_scope R7); the meanings apply it to `Config.params`. -/

namespace Sys2Proof.Machine

/-- powerUp (42_radio_control R115). -/
def powerUp (P : Params) (s : State) : State := setBit P.tSettle (regByte P.regConfig) P.bitPwr s

/-- shutDown (42_radio_control R116). -/
def shutDown (P : Params) (s : State) : State := clearBit P.tSettle (regByte P.regConfig) P.bitPwr s

/-- setModeRX: chip-enable low, the PRIM_RX bit, chip-enable high, in this order (42_radio_control R118). -/
def setModeRX (P : Params) (s : State) : State :=
  let s := pinWrite .ce false s
  let s := setBit P.tSettle (regByte P.regConfig) P.bitPrimRx s
  pinWrite .ce true s

/-- setCh: the channel byte unchanged (42_radio_control R119). -/
def setCh (P : Params) (channel : Byte) (s : State) : State :=
  writeRegister P.tSettle (regByte P.regCh) channel s

/-- `(level ? setBit : clearBit)(addr, i)` (42_radio_control R121). -/
def putBit (T : Nat) (addr : Byte) (i : BitPos) (level : Bool) (s : State) : State :=
  if level then setBit T addr i s else clearBit T addr i s

/-- setDataRate in the form `SDR_FORM` selects (42_radio_control R120, R121). -/
def setDataRate (P : Params) (rate : DataRate) (s : State) : State :=
  let (h, l) := rateCode rate
  let addr := regByte P.regDr
  match P.sdrForm with
  | .rmwHiFirst => putBit P.tSettle addr P.bitDrLo l (putBit P.tSettle addr P.bitDrHi h s)
  | .rmwLoFirst => putBit P.tSettle addr P.bitDrHi h (putBit P.tSettle addr P.bitDrLo l s)
  | .oneRmw => rmw P.tSettle addr (putRateIn · P.bitDrHi P.bitDrLo h l) s

/-- getDataRate in the form `GDR_FORM` selects (42_radio_control R122, R123). -/
def getDataRate (P : Params) (s : State) : DataRate × State :=
  let addr := regByte P.regDr
  match P.gdrForm with
  | .oneRead =>
    let (v, s) := readRegister P.tSettle addr s
    (rateOfCode (testBitIn v P.bitDrHi) (testBitIn v P.bitDrLo), s)
  | .readbitHiFirst =>
    let (h, s) := readBit P.tSettle addr P.bitDrHi s
    let (l, s) := readBit P.tSettle addr P.bitDrLo s
    (rateOfCode h l, s)
  | .readbitLoFirst =>
    let (l, s) := readBit P.tSettle addr P.bitDrLo s
    let (h, s) := readBit P.tSettle addr P.bitDrHi s
    (rateOfCode h l, s)

/-- setCRCSize for a size the source defines: 0 clears, 1 does nothing at all, 2 sets (42_radio_control R125). -/
def setCRCSize (P : Params) (n : Fin 3) (s : State) : State :=
  match n with
  | 0 => clearBit P.tSettle (regByte P.regConfig) P.bitCrcEn s
  | 1 => s
  | 2 => setBit P.tSettle (regByte P.regConfig) P.bitCrcEn s

/-- enableDynAck (42_radio_control R126). -/
def enableDynAck (P : Params) (s : State) : State := setBit P.tSettle (regByte P.regDynack) P.bitDynack s

/-- disableDynAck (42_radio_control R127). -/
def disableDynAck (P : Params) (s : State) : State := clearBit P.tSettle (regByte P.regDynack) P.bitDynack s

/-- setRxPayloadWidth: the pipe modulo 6, the width unchanged (42_radio_control R128). -/
def setRxPayloadWidth (P : Params) (pipe width : Byte) (s : State) : State :=
  writeRegister P.tSettle (regByte P.rxPw[pipeIndex pipe]) width s

/-- POWER_UP (42_radio_control R115). -/
def execPwrup (s : State) : Outcome := whenReady 11 s (complete (powerUp Config.params (enter s)))

/-- SHUT_DOWN (42_radio_control R116). -/
def execPwrdn (s : State) : Outcome := whenReady 12 s (complete (shutDown Config.params (enter s)))

/-- SET_MODE_RX (42_radio_control R118). -/
def execRxmode (s : State) : Outcome := whenReady 13 s (complete (setModeRX Config.params (enter s)))

/-- SET_CH (42_radio_control R119). -/
def execCh (channel : Byte) (s : State) : Outcome := whenReady 14 s (complete (setCh Config.params channel (enter s)))

/-- SET_DATA_RATE (42_radio_control R120). -/
def execDr (rate : DataRate) (s : State) : Outcome :=
  whenReady 15 s (complete (setDataRate Config.params rate (enter s)))

/-- GET_DATA_RATE (42_radio_control R122). -/
def execGdr (s : State) : Outcome :=
  whenReady 16 s <|
    let (r, t) := getDataRate Config.params (enter s)
    complete (respond (.rate r) t)

/-- SET_CRC_SIZE (42_radio_control R125; 60_exceptions R142). -/
def execCrc (n : Byte) (s : State) : Outcome :=
  whenReady 17 s <|
    if h : n.toNat < 3 then complete (setCRCSize Config.params ⟨n.toNat, h⟩ (enter s)) else .refused .crcSize

/-- ENABLE_DYN_ACK (42_radio_control R126). -/
def execDynackOn (s : State) : Outcome := whenReady 18 s (complete (enableDynAck Config.params (enter s)))

/-- DISABLE_DYN_ACK (42_radio_control R127). -/
def execDynackOff (s : State) : Outcome := whenReady 19 s (complete (disableDynAck Config.params (enter s)))

/-- SET_RX_PAYLOAD_WIDTH (42_radio_control R128). -/
def execPlw (pipe width : Byte) (s : State) : Outcome :=
  whenReady 20 s (complete (setRxPayloadWidth Config.params pipe width (enter s)))

end Sys2Proof.Machine
end

