-- ==== Sys2Proof/Machine/Boot.lean ====
section
/-! DEFINITION. The initialisation sequence BEGIN (70_reset_and_hazards R151 to R155). -/

namespace Sys2Proof.Machine

/-- One step of the recipe: the ordinary operation, with no RESULT of its own (70_reset_and_hazards R151; 00_scope
R15). -/
def performStep (P : Params) (st : RecipeStep) (s : State) : State :=
  match st with
  | .writeRegisterN addr buf => memWrite P.tSettle (cmdW addr) buf s
  | .writeRegister addr value => writeRegister P.tSettle addr value s
  | .writeCommand cmd data => memWrite P.tSettle cmd data s
  | .setBit addr bit => setBit P.tSettle addr bit s
  | .clearBit addr bit => clearBit P.tSettle addr bit s
  | .powerUp => powerUp P s
  | .shutDown => shutDown P s
  | .setModeRX => setModeRX P s
  | .setCh channel => setCh P channel s
  | .setDataRate rate => setDataRate P rate s
  | .getDataRate => (getDataRate P s).2
  | .setCRCSize n => setCRCSize P n s
  | .enableDynAck => enableDynAck P s
  | .disableDynAck => disableDynAck P s
  | .setRxPayloadWidth pipe width => setRxPayloadWidth P pipe width s

/-- The steps of a recipe, in order (70_reset_and_hazards R153). -/
def performSteps (P : Params) : List RecipeStep → State → State
  | [], s => s
  | st :: rest, s => performSteps P rest (performStep P st s)

/-- begin (70_reset_and_hazards R151): the binding, the pin initialisation, the recipe, then chip-enable high. -/
def bootWith (P : Params) (pins : Pins) (s : State) : State :=
  let s := pinInit { s with pins := some pins }
  let s := performSteps P P.recipe.toList { s with bound := true }
  pinWrite .ce true s

/-- BEGIN (70_reset_and_hazards R151): refused when bound, or when two of the given pins are the same (60_exceptions R144,
R147 item 5). The model's pin parameters, used where no pins are given, are distinct by their law (00_scope R7; log entry
8). -/
def execBegin (pins : Option Pins) (s : State) : Outcome :=
  ifIdle s <|
    if s.bound then .refused .rebegin
    else
      match pins with
      | none => complete (bootWith Config.params Config.params.pins (enter s))
      | some p =>
        if p.distinct then complete (bootWith Config.params p (enter s)) else .refused .pinAlias

end Sys2Proof.Machine
end

