-- ==== Sys2Proof/Machine/Receive.lean ====
section
/-! DEFINITION. The receive family: SET_RECEIVE_CALLBACK, POLL and the end of its NOTIFY window (42_radio_control R131 to
R135). -/

namespace Sys2Proof.Machine

/-- SET_RECEIVE_CALLBACK: writes the slot, touches no pin, and works before begin too (42_radio_control R131). -/
def execOnrx (handler : Option Handler) (s : State) : Outcome :=
  ifIdle s (complete { enter s with rxHandler := handler })

/-- ClearReady: writes 1 to the data-ready bit in the form `POLL_CLEAR_FORM` selects (42_radio_control R134). -/
def clearReady (P : Params) (s : State) : State :=
  match P.pollClearForm with
  | .clearByWrite => writeRegister P.tSettle (regByte P.regStatus) (mask P.bitRxReady) s
  | .clearBySetbit => setBit P.tSettle (regByte P.regStatus) P.bitRxReady s

/-- NOTIFY: the hand-off to the handler. The block is not busy during the window, and poll's place in its own event
sequence is kept (42_radio_control R133; 10_state R27). -/
def openWindow (h : Handler) (s : State) : State :=
  let s := record (.notify h) s
  { s with busy := false, windows := s.pc :: s.windows }

/-- poll (42_radio_control R132). With the bit set and a handler present the step ends at NOTIFY; the clear follows when
the handler returns (`returnFromHandler`). -/
def poll (P : Params) (s : State) : Outcome :=
  let (b, s) := readBit P.tSettle (regByte P.regStatus) P.bitRxReady s
  if b then
    match s.rxHandler with
    | some h => .next (openWindow h s)
    | none => complete (clearReady P s)
  else complete s

/-- POLL (42_radio_control R132). -/
def execPoll (s : State) : Outcome := whenReady 22 s (poll Config.params (enter s))

/-- The return of the handler: the innermost suspended poll goes on with the clear, and ends (42_radio_control R133). -/
def resumePoll (P : Params) (s : State) : Outcome :=
  ifIdle s <|
    match s.windows with
    | [] => .refused .noOpenWindow
    | pc :: rest => complete (clearReady P { s with windows := rest, busy := true, pc := pc })

/-- The handler's return in the machine (42_radio_control R133). -/
def returnFromHandler (s : State) : Outcome := resumePoll Config.params s

end Sys2Proof.Machine
end

