-- ==== Sys2Proof/Machine/Register.lean ====
section
/-! DEFINITION. The register access family (41_register_access R97 to R110). -/

namespace Sys2Proof.Machine

/-- READ_REGISTER_N (41_register_access R97). -/
def execRregn (addr : Byte) (len : Nat) (s : State) : Outcome :=
  whenReady 2 s <|
    let (l, t) := memRead Config.params.tSettle (cmdR addr) len (enter s)
    complete (respond (.bytes l) t)

/-- READ_REGISTER (41_register_access R98). -/
def execRreg (addr : Byte) (s : State) : Outcome :=
  whenReady 3 s <|
    let (v, t) := readRegister Config.params.tSettle addr (enter s)
    complete (respond (.byte v) t)

/-- WRITE_REGISTER_N: the first `len` bytes of `buf` (41_register_access R99; 30_encoding R74). -/
def execWregn (addr : Byte) (buf : List Byte) (len : Nat) (s : State) : Outcome :=
  whenReady 4 s <|
    if buf.length < len then .refused .shortBuffer
    else complete (memWrite Config.params.tSettle (cmdW addr) (buf.take len) (enter s))

/-- WRITE_REGISTER (41_register_access R100). -/
def execWreg (addr value : Byte) (s : State) : Outcome :=
  whenReady 5 s (complete (writeRegister Config.params.tSettle addr value (enter s)))

/-- SET_BIT (41_register_access R101). -/
def execSetb (addr bitIndex : Byte) (s : State) : Outcome :=
  whenReady 6 s (withBitPos bitIndex fun i => complete (setBit Config.params.tSettle addr i (enter s)))

/-- CLEAR_BIT (41_register_access R102). -/
def execClrb (addr bitIndex : Byte) (s : State) : Outcome :=
  whenReady 7 s (withBitPos bitIndex fun i => complete (clearBit Config.params.tSettle addr i (enter s)))

/-- READ_BIT (41_register_access R106). -/
def execRbit (addr bitIndex : Byte) (s : State) : Outcome :=
  whenReady 8 s <| withBitPos bitIndex fun i =>
    let (b, t) := readBit Config.params.tSettle addr i (enter s)
    complete (respond (.bit b) t)

/-- READ_RX_PAYLOAD_WIDTH (41_register_access R109). -/
def execRplw (s : State) : Outcome :=
  whenReady 9 s <|
    let (l, t) := memRead Config.params.tSettle cmdPayloadWidth 1 (enter s)
    complete (respond (.byte (l.headD 0)) t)

/-- READ_RX_PAYLOAD (41_register_access R110). -/
def execRpl (len : Nat) (s : State) : Outcome :=
  whenReady 10 s <|
    let (l, t) := memRead Config.params.tSettle cmdPayload len (enter s)
    complete (respond (.bytes l) t)

end Sys2Proof.Machine
end

