-- ==== Sys2Proof/Machine/Transport.lean ====
section
/-! DEFINITION. The transport family: TRANSFER_BYTE and WRITE_COMMAND (40_transport R82, R89). -/

namespace Sys2Proof.Machine

/-- TRANSFER_BYTE (40_transport R82; 60_exceptions R145). Its precondition is a chip-select held low, that is, a block
in a frame (10_state R28): there it never fails. Between operations chip-select is high (10_state R37), so on every state
that a run reaches the request is refused. DEDUCED: log entry 11. -/
def execXfer (out : Byte) (s : State) : Outcome :=
  whenReady 0 s <|
    if s.csn then .refused .unframed
    else
      let (r, t) := transfer Config.params.tSettle out (enter s)
      complete (respond (.byte r) t)

/-- WRITE_COMMAND (40_transport R89): any command byte, sent as given. -/
def execWcmd (cmd : Byte) (data : List Byte) (s : State) : Outcome :=
  whenReady 1 s (complete (memWrite Config.params.tSettle cmd data (enter s)))

end Sys2Proof.Machine
end

