-- ==== Sys2Proof/Machine/Wire.lean ====
section
/-! DEFINITION. The wire command forms as instructions: each is the one frame that opens with its command byte
(30_encoding R62 to R67). It is no host request, so it records no RESULT (00_scope R15; log entry 9). -/

namespace Sys2Proof.Machine

/-- CMD_READ_REGISTER, `000aaaaa` (30_encoding R62). -/
def execCmdReadRegister (a : RegAddr) (len : Nat) (s : State) : Outcome :=
  whenReadyCommand (cmdR (regByte a)) s
    (complete (memRead Config.params.tSettle (cmdR (regByte a)) len (enter s)).2)

/-- CMD_WRITE_REGISTER, `001aaaaa` (30_encoding R63). -/
def execCmdWriteRegister (a : RegAddr) (data : List Byte) (s : State) : Outcome :=
  whenReadyCommand (cmdW (regByte a)) s (complete (memWrite Config.params.tSettle (cmdW (regByte a)) data (enter s)))

/-- CMD_READ_RX_PAYLOAD_WIDTH, 0x60, with one payload byte (30_encoding R64). -/
def execCmdReadRxPayloadWidth (s : State) : Outcome :=
  whenReadyCommand cmdPayloadWidth s (complete (memRead Config.params.tSettle cmdPayloadWidth 1 (enter s)).2)

/-- CMD_READ_RX_PAYLOAD, 0x61 (30_encoding R65). -/
def execCmdReadRxPayload (len : Nat) (s : State) : Outcome :=
  whenReadyCommand cmdPayload s (complete (memRead Config.params.tSettle cmdPayload len (enter s)).2)

end Sys2Proof.Machine
end

