-- ==== Sys2Proof/Machine/Dispatch.lean ====
section
/-! DEFINITION. The dispatch: one arm per instruction. -/

namespace Sys2Proof.Machine

def exec (i : Instr) (s : State) : Host.Outcome State Fault Refusal :=
  match i with
  | .xfer out => Sys2Proof.Machine.execXfer out s
  | .wcmd cmd data => Sys2Proof.Machine.execWcmd cmd data s
  | .rregn addr len => Sys2Proof.Machine.execRregn addr len s
  | .rreg addr => Sys2Proof.Machine.execRreg addr s
  | .wregn addr buf len => Sys2Proof.Machine.execWregn addr buf len s
  | .wreg addr value => Sys2Proof.Machine.execWreg addr value s
  | .setb addr bitIndex => Sys2Proof.Machine.execSetb addr bitIndex s
  | .clrb addr bitIndex => Sys2Proof.Machine.execClrb addr bitIndex s
  | .rbit addr bitIndex => Sys2Proof.Machine.execRbit addr bitIndex s
  | .rplw => Sys2Proof.Machine.execRplw s
  | .rpl len => Sys2Proof.Machine.execRpl len s
  | .pwrup => Sys2Proof.Machine.execPwrup s
  | .pwrdn => Sys2Proof.Machine.execPwrdn s
  | .rxmode => Sys2Proof.Machine.execRxmode s
  | .ch channel => Sys2Proof.Machine.execCh channel s
  | .dr rate => Sys2Proof.Machine.execDr rate s
  | .gdr => Sys2Proof.Machine.execGdr s
  | .crc n => Sys2Proof.Machine.execCrc n s
  | .dynackOn => Sys2Proof.Machine.execDynackOn s
  | .dynackOff => Sys2Proof.Machine.execDynackOff s
  | .plw pipe width => Sys2Proof.Machine.execPlw pipe width s
  | .onrx handler => Sys2Proof.Machine.execOnrx handler s
  | .poll => Sys2Proof.Machine.execPoll s
  | .beginPins pins => Sys2Proof.Machine.execBegin pins s
  | .cmdReadRegister a len => Sys2Proof.Machine.execCmdReadRegister a len s
  | .cmdWriteRegister a data => Sys2Proof.Machine.execCmdWriteRegister a data s
  | .cmdReadRxPayloadWidth => Sys2Proof.Machine.execCmdReadRxPayloadWidth s
  | .cmdReadRxPayload len => Sys2Proof.Machine.execCmdReadRxPayload len s

end Sys2Proof.Machine
end

