-- ==== Sys2Proof/Machine/Fetch.lean ====
section
/-! DEFINITION. Fetching: what the next item from the host is (30_encoding R73, R75; log entry 6). -/

namespace Sys2Proof.Machine

/-- What one item of the inbox asks for. -/
inductive Fetched where
  /-- An instruction, issued with nothing else running or inside a NOTIFY window. -/
  | run (i : Instr)
  /-- An instruction that a second context issues while an operation runs. -/
  | overlapping (i : Instr)
  /-- The handler's return. -/
  | handlerReturn
  /-- Bytes that are no instruction. -/
  | unknown (why : DecodeError)
deriving DecidableEq, Repr

/-- Decodes an item with the decoder of its format. -/
def fetch : HostInput → Fetched
  | .request bytes =>
    match decode .hostop bytes with
    | .ok i => .run i
    | .error e => .unknown e
  | .overlap bytes =>
    match decode .hostop bytes with
    | .ok i => .overlapping i
    | .error e => .unknown e
  | .command bytes =>
    match decode .cmd8 bytes with
    | .ok i => .run i
    | .error e => .unknown e
  | .handlerReturn => .handlerReturn

/-- The item that carries the bytes of an instruction of a format. -/
def item : Format → List Byte → HostInput
  | .hostop, bytes => .request bytes
  | .cmd8, bytes => .command bytes

/-- The block as a second context finds it: an operation is running (10_state R29; 60_exceptions R143). -/
def interrupted (s : State) : State := { s with busy := true }

/-- A state with one more item in front of what the host will send. -/
def pushItem (x : HostInput) (s : State) : State := { s with inbox := x :: s.inbox }

end Sys2Proof.Machine
end

