-- ==== Sys2Proof/Machine/Step.lean ====
section
/-! DEFINITION. One step: the block takes the next item from the host and performs it whole (00_scope R5, R11; 70_reset_and_hazards
R173). With nothing from the host it is idle and nothing changes (60_exceptions R150). -/

namespace Sys2Proof.Machine

/-- One step of the machine. -/
def step (s : State) : Host.Outcome State Fault Refusal :=
  match s.inbox with
  | [] => .next s
  | x :: rest =>
    match fetch x with
    | .run i => exec i { s with inbox := rest }
    | .overlapping i => exec i (interrupted { s with inbox := rest })
    | .handlerReturn => returnFromHandler { s with inbox := rest }
    | .unknown why => .refused (.unknown why)

/-- A state whose next item is the instruction a table word is (log entry 20). -/
def State.withFetchWord (s : State) (nbits w : Nat) : State :=
  pushItem (item (tableFormat nbits w) (tableWordBytes nbits w)) s

end Sys2Proof.Machine
end

