-- ==== Sys2Proof/Safety.lean ====
section
/-! DEFINITION. The terms in which claims speak of the block: what the wire carries during a frame (30_encoding R67,
R68), the state a frame leaves, a bus monitor, the time a trace takes at least (70_reset_and_hazards R169), the passive
register file F1 (95_test_vectors), and the invariants between operations (10_state R37). Nothing here is used by the
machine. -/

namespace Sys2Proof.Safety

open Sys2Proof.Machine

/-! ### Outcomes and admission -/

/-- The next state, where there is one. -/
def nextState? : Outcome → Option State
  | .next s => some s
  | .fault _ => none
  | .refused _ => none

/-- The state's last event, where there is one. -/
def lastEvent? (s : State) : Option Event := s.trace.getLast?

/-- The conditions under which a request is admitted: bound, and nothing running (60_exceptions R138, R143). -/
def Ready (s : State) : Prop := s.busy = false ∧ s.bound = true

/-- The end of an operation. -/
def ended (s : State) : State := { s with busy := false }

/-- A state whose operation has recorded RESULT(r). -/
def returned (r : Result) (s : State) : State :=
  { s with trace := s.trace ++ [.result r], pc := s.pc + 1 }

/-! ### The wire -/

/-- The byte sampled over the eight samples from the `k`-th coming one on: the first sample is bit 7 (40_transport R84). -/
def sampledByte (s : State) (k : Nat) : Byte :=
  byteOfBits (sample s k) (sample s (k + 1)) (sample s (k + 2)) (sample s (k + 3)) (sample s (k + 4)) (sample s (k + 5))
    (sample s (k + 6)) (sample s (k + 7))

/-- The `n` bytes sampled from the `k`-th coming sample on. -/
def reply (s : State) : Nat → Nat → List Byte
  | _, 0 => []
  | k, n + 1 => sampledByte s k :: reply s (k + 8) n

/-- The seven events of one bit cell (30_encoding R68). -/
def cellEvents (T : Nat) (d q : Level) : List Event :=
  [.set .mosi d, .wait T, .set .sck true, .get .miso q, .wait T, .set .sck false, .wait T]

/-- The events of one transfer, MSB first on MOSI, with the samples from the `k`-th coming one on (20_memory R43). -/
def byteEvents (T : Nat) (s : State) (k : Nat) (b : Byte) : List Event :=
  (List.range 8).flatMap fun j => cellEvents T (b.getLsbD (7 - j)) (sample s (k + j))

/-- The events of the transfers of a byte list, in index order (20_memory R44). -/
def bytesEvents (T : Nat) (s : State) : Nat → List Byte → List Event
  | _, [] => []
  | k, b :: bs => byteEvents T s k b ++ bytesEvents T s (k + 8) bs

/-- The events of a frame: chip-select low, the command byte, the payload, chip-select high (30_encoding R67). -/
def frameEvents (T : Nat) (cmd : Byte) (data : List Byte) (s : State) : List Event :=
  .set .csn false :: (bytesEvents T s 0 (cmd :: data) ++ [.set .csn true])

/-- The last byte of a frame. -/
def lastByte (cmd : Byte) (data : List Byte) : Byte := (cmd :: data).getLast (by simp)

/-- The state after a transfer that is not followed by anything (40_transport R85 item 4). -/
def afterTransfer (T : Nat) (out : Byte) (s : State) : State :=
  { s with
    sck := false
    mosi := out.getLsbD 0
    tx := 0
    rx := sampledByte s 0
    bitcnt := 8
    pc := s.pc + 56
    trace := s.trace ++ byteEvents T s 0 out
    misoIn := s.misoIn.drop 8
    drawn := s.drawn + 8 }

/-- The state after a frame: its events, chip-select high, clock low, MOSI at the last data bit (10_state R36, R37;
40_transport R87). -/
def afterFrame (T : Nat) (cmd : Byte) (data : List Byte) (s : State) : State :=
  { s with
    sck := false
    mosi := (lastByte cmd data).getLsbD 0
    csn := true
    tx := 0
    rx := sampledByte s (8 * data.length)
    bitcnt := 8
    pc := s.pc + (2 + 56 * (data.length + 1))
    trace := s.trace ++ frameEvents T cmd data s
    misoIn := s.misoIn.drop (8 * (data.length + 1))
    drawn := s.drawn + 8 * (data.length + 1) }

/-- The state after a read frame of `n` payload bytes (40_transport R91). -/
def afterRead (T : Nat) (cmd : Byte) (n : Nat) (s : State) : State := afterFrame T cmd (List.replicate n 0) s

/-- The state after a read-modify-write: the second frame writes `f` of the byte the first one sampled (41_register_access
R101 to R103). -/
def afterRmw (T : Nat) (addr : Byte) (f : Byte → Byte) (s : State) : State :=
  afterFrame T (cmdW addr) [f (sampledByte s 8)] (afterRead T (cmdR addr) 1 s)

/-- The state after a pin write. -/
def afterCe (l : Level) (s : State) : State :=
  { s with ce := l, trace := s.trace ++ [.set .ce l], pc := s.pc + 1 }

/-- The state after setDataRate in a form (42_radio_control R121). -/
def afterSetDataRate (P : Params) (rate : DataRate) (s : State) : State :=
  let addr := regByte P.regDr
  let hi := fun v => putBitIn v P.bitDrHi (rateCode rate).1
  let lo := fun v => putBitIn v P.bitDrLo (rateCode rate).2
  match P.sdrForm with
  | .rmwHiFirst => afterRmw P.tSettle addr lo (afterRmw P.tSettle addr hi s)
  | .rmwLoFirst => afterRmw P.tSettle addr hi (afterRmw P.tSettle addr lo s)
  | .oneRmw => afterRmw P.tSettle addr (fun v => putRateIn v P.bitDrHi P.bitDrLo (rateCode rate).1 (rateCode rate).2) s

/-- The read frames of getDataRate in a form (42_radio_control R123). -/
def afterGetDataRate (P : Params) (s : State) : State :=
  let once := afterRead P.tSettle (cmdR (regByte P.regDr)) 1
  match P.gdrForm with
  | .oneRead => once s
  | .readbitHiFirst => once (once s)
  | .readbitLoFirst => once (once s)

/-- The rate getDataRate returns: in the two-frame forms the two bits come from different frames (42_radio_control
R123). -/
def rateRead (P : Params) (s : State) : DataRate :=
  let v1 := sampledByte s 8
  let v2 := sampledByte s 24
  match P.gdrForm with
  | .oneRead => rateOfCode (testBitIn v1 P.bitDrHi) (testBitIn v1 P.bitDrLo)
  | .readbitHiFirst => rateOfCode (testBitIn v1 P.bitDrHi) (testBitIn v2 P.bitDrLo)
  | .readbitLoFirst => rateOfCode (testBitIn v2 P.bitDrHi) (testBitIn v1 P.bitDrLo)

/-- The state after poll's clear in a form (42_radio_control R134). -/
def afterClear (P : Params) (s : State) : State :=
  match P.pollClearForm with
  | .clearByWrite => afterFrame P.tSettle (cmdW (regByte P.regStatus)) [mask P.bitRxReady] s
  | .clearBySetbit => afterRmw P.tSettle (regByte P.regStatus) (fun v => v ||| mask P.bitRxReady) s

/-- The state after one recipe step (70_reset_and_hazards R153). -/
def afterStep (P : Params) (s : State) : RecipeStep → State
  | .writeRegisterN addr buf => afterFrame P.tSettle (cmdW addr) buf s
  | .writeRegister addr value => afterFrame P.tSettle (cmdW addr) [value] s
  | .writeCommand cmd data => afterFrame P.tSettle cmd data s
  | .setBit addr i => afterRmw P.tSettle addr (fun v => v ||| mask i) s
  | .clearBit addr i => afterRmw P.tSettle addr (fun v => v &&& ~~~(mask i)) s
  | .powerUp => afterRmw P.tSettle (regByte P.regConfig) (fun v => v ||| mask P.bitPwr) s
  | .shutDown => afterRmw P.tSettle (regByte P.regConfig) (fun v => v &&& ~~~(mask P.bitPwr)) s
  | .setModeRX =>
    afterCe true (afterRmw P.tSettle (regByte P.regConfig) (fun v => v ||| mask P.bitPrimRx) (afterCe false s))
  | .setCh channel => afterFrame P.tSettle (cmdW (regByte P.regCh)) [channel] s
  | .setDataRate rate => afterSetDataRate P rate s
  | .getDataRate => afterGetDataRate P s
  | .setCRCSize n =>
    if n = 0 then afterRmw P.tSettle (regByte P.regConfig) (fun v => v &&& ~~~(mask P.bitCrcEn)) s
    else if n = 2 then afterRmw P.tSettle (regByte P.regConfig) (fun v => v ||| mask P.bitCrcEn) s
    else s
  | .enableDynAck => afterRmw P.tSettle (regByte P.regDynack) (fun v => v ||| mask P.bitDynack) s
  | .disableDynAck => afterRmw P.tSettle (regByte P.regDynack) (fun v => v &&& ~~~(mask P.bitDynack)) s
  | .setRxPayloadWidth pipe width =>
    afterFrame P.tSettle (cmdW (regByte P.rxPw[pipeIndex pipe])) [width] s

/-- The ten events of the pin initialisation (70_reset_and_hazards R152). -/
def pinInitEvents : List Event :=
  [.set .csn true, .dir .csn .output, .set .sck false, .dir .sck .output, .set .mosi false, .dir .mosi .output,
    .set .ce false, .dir .ce .output, .dir .miso .input, .dir .irq .input]

/-- The directions begin gives the pins (10_state R23). -/
def boundDirs : Dirs :=
  { sck := .output, miso := .input, mosi := .output, csn := .output, ce := .output, irq := .input }

/-- The state after begin's binding and pin initialisation (70_reset_and_hazards R151, R152). -/
def afterPinInit (pins : Pins) (s : State) : State :=
  { s with
    pins := some pins
    bound := true
    dir := boundDirs
    sck := false
    mosi := false
    csn := true
    ce := false
    pc := s.pc + 10
    trace := s.trace ++ pinInitEvents }

/-- The state after begin: initialisation, the steps of the recipe in order, chip-enable high (70_reset_and_hazards
R151). -/
def afterBegin (P : Params) (pins : Pins) (s : State) : State :=
  afterCe true (P.recipe.toList.foldl (afterStep P) (afterPinInit pins s))

/-- The state in which begin performs step `k` of its recipe, counted from 0: after the pin initialisation and the steps
before (70_reset_and_hazards R153). -/
def recipeState (P : Params) (pins : Pins) (s : State) (k : Nat) : State :=
  (P.recipe.toList.take k).foldl (afterStep P) (afterPinInit pins s)

/-! ### A bus monitor -/

/-- Where a bus is, seen from its events: between frames, or `n` events into a frame after chip-select fell. -/
inductive BusPhase where
  | idle
  | inFrame (n : Nat)
deriving DecidableEq, Repr

/-- The kind of event the format wants at place `n` of a bit cell (30_encoding R68). -/
def cellWants (T : Nat) : Nat → Event → Bool
  | 0, .set .mosi _ => true
  | 1, .wait t => t == T
  | 2, .set .sck true => true
  | 3, .get .miso _ => true
  | 4, .wait t => t == T
  | 5, .set .sck false => true
  | 6, .wait t => t == T
  | _, _ => false

/-- One event of the bus: between frames chip-select may fall, chip-enable may move, and the host may be told
something; in a frame the events are bit cells, and chip-select may rise after a whole number of transfers, at least
one (30_encoding R67, R68; 20_memory R48; 70_reset_and_hazards R161). Anything else is a violation. -/
def busStep (T : Nat) : BusPhase → Event → Option BusPhase
  | .idle, .set .csn false => some (.inFrame 0)
  | .idle, .set .ce _ => some .idle
  | .idle, .notify _ => some .idle
  | .idle, .result _ => some .idle
  | .idle, _ => none
  | .inFrame n, e =>
    if n ≠ 0 ∧ n % 56 = 0 ∧ e = .set .csn true then some .idle
    else if cellWants T (n % 7) e then some (.inFrame (n + 1))
    else none

/-- The phase after some events; `none` at the first violation. -/
def busRun (T : Nat) : List Event → BusPhase → Option BusPhase
  | [], p => some p
  | e :: es, p => (busStep T p e).bind (busRun T es)

/-- The level a pin was last set to by some events, where it was set. -/
def lastLevel (p : OutPin) : List Event → Option Level
  | [] => none
  | e :: es =>
    match lastLevel p es with
    | some l => some l
    | none => if e = .set p true then some true else if e = .set p false then some false else none

/-- The latch of a pin. -/
def latch (s : State) : OutPin → Level
  | .sck => s.sck
  | .mosi => s.mosi
  | .csn => s.csn
  | .ce => s.ce

/-! ### Frames seen on the wire -/

/-- The levels MOSI is set to, in order. -/
def mosiLevels : List Event → List Level
  | [] => []
  | .set .mosi d :: es => d :: mosiLevels es
  | _ :: es => mosiLevels es

/-- Wire bytes, first level as bit 7 (20_memory R43). -/
def wireBytes : List Level → List Byte
  | b7 :: b6 :: b5 :: b4 :: b3 :: b2 :: b1 :: b0 :: rest => byteOfBits b7 b6 b5 b4 b3 b2 b1 b0 :: wireBytes rest
  | _ => []

/-- The frames of some events, each the list of its wire bytes, command byte first; the second argument holds the MOSI
levels of the frame that is open, where one is. -/
def framesFrom : List Event → Option (List Level) → List (List Byte)
  | [], _ => []
  | .set .csn false :: es, _ => framesFrom es (some [])
  | .set .csn true :: es, some ls => wireBytes ls :: framesFrom es none
  | .set .mosi d :: es, some ls => framesFrom es (some (ls ++ [d]))
  | _ :: es, st => framesFrom es st

/-- The frames a bus monitor reads in some events that begin between frames (30_encoding R67, R69). -/
def framesOf (es : List Event) : List (List Byte) := framesFrom es none

/-- The events of a later state that an earlier one does not have. -/
def newEvents (s t : State) : List Event := t.trace.drop s.trace.length

/-- The number of MISO samples among some events (20_memory R45). -/
def samplesIn (es : List Event) : Nat :=
  es.countP fun e =>
    match e with
    | .get .miso _ => true
    | _ => false

/-! ### Time -/

/-- The time an event takes at least, in microseconds (00_scope R12). -/
def eventTime : Event → Nat
  | .wait t => t
  | .dir _ _ | .set _ _ | .get _ _ | .notify _ | .result _ => 0

/-- The time a trace takes at least (70_reset_and_hazards R169). -/
def minTime (es : List Event) : Nat := (es.map eventTime).sum

/-- The waits recorded while chip-select is high, given its level before the events (70_reset_and_hazards R162). A slave-side check of
`T_CSN_HIGH_MIN` compares with it. -/
def waitsWhileHigh : Level → List Event → Nat
  | _, [] => 0
  | _, .set .csn l :: es => waitsWhileHigh l es
  | true, .wait t :: es => t + waitsWhileHigh true es
  | l, _ :: es => waitsWhileHigh l es

/-! ### What an event shows without the sample -/

/-- An event with the sampled level left out: what the block itself decides (40_transport R95). -/
def blind : Event → Event
  | .get p _ => .get p false
  | .result (.byte _) => .result (.byte 0)
  | .result (.bytes l) => .result (.bytes (List.replicate l.length 0))
  | .result (.bit _) => .result (.bit false)
  | .result (.rate _) => .result (.rate .dr1M)
  | e => e

/-- Two states that differ in nothing but what the slave will drive. -/
def SameBlock (s t : State) : Prop := { s with misoIn := t.misoIn, drawn := t.drawn } = t

/-! ### The passive register file F1 -/

/-- The registers of fixture F1, with the payload answers of the two special commands (95_test_vectors, F1). -/
structure PassiveFile where
  regs : List (RegAddr × List Byte)
  rxWidth : Byte
  rxPayload : List Byte
deriving DecidableEq, Repr

/-- The bytes of a register; one that was never written holds one zero byte. -/
def PassiveFile.read (m : PassiveFile) (a : RegAddr) : List Byte := (m.regs.lookup a).getD [0]

/-- What F1 drives during one frame, the command transfer included. -/
def PassiveFile.answer (m : PassiveFile) (cmd : Byte) (n : Nat) : List Byte :=
  0 :: (List.range n).map fun j =>
    match commandForm cmd with
    | .readRegister a => (m.read a).getD j 0
    | .writeRegister _ => 0
    | .readPayloadWidth => if j = 0 then m.rxWidth else 0
    | .readPayload => m.rxPayload.getD j 0
    | .unlisted => 0

/-- F1 after one frame: a write of at least one byte replaces the register. -/
def PassiveFile.after (m : PassiveFile) (cmd : Byte) (data : List Byte) : PassiveFile :=
  match commandForm cmd with
  | .writeRegister a => if data = [] then m else { m with regs := (a, data) :: m.regs }
  | .readRegister _ | .readPayloadWidth | .readPayload | .unlisted => m

/-- The levels a slave drives for some bytes, MSB first (20_memory R43). -/
def levelsOf (bs : List Byte) : List Level :=
  bs.flatMap fun b => (List.range 8).map fun j => b.getLsbD (7 - j)

/-- What F1 drives while some frames pass, in order; a frame is its wire bytes. -/
def PassiveFile.answers (m : PassiveFile) : List (List Byte) → List Byte
  | [] => []
  | [] :: frames => m.answers frames
  | (cmd :: data) :: frames => m.answer cmd data.length ++ (m.after cmd data).answers frames

/-- The slave of `s` behaves as F1 while the given frames pass: every sample is the level F1 drives. -/
def DrivesPassive (m : PassiveFile) (s : State) (frames : List (List Byte)) : Prop :=
  ∀ k, k < (levelsOf (m.answers frames)).length → some (sample s k) = (levelsOf (m.answers frames))[k]?

/-! ### Invariants between operations -/

/-- The block at rest: not busy; before begin nothing is bound and nothing was recorded; from begin's end on the pins are
bound and distinct, their directions are those of 10_state R23, chip-select is high and the clock low (10_state R37). -/
def AtRest (s : State) : Prop :=
  s.busy = false ∧ s.bitcnt ≤ 8
  ∧ (s.bound = false → s.pins = none ∧ s.windows = [] ∧ s.trace = [])
  ∧ (s.bound = true → s.csn = true ∧ s.sck = false ∧ s.dir = boundDirs ∧ ∃ p, s.pins = some p ∧ p.distinct = true)

/-- The trace of a bound block is the pin initialisation and then a bus without a violation, ended between frames. -/
def CleanBus (s : State) : Prop :=
  s.bound = true → ∃ es, s.trace = pinInitEvents ++ es ∧ busRun Config.params.tSettle es .idle = some .idle

/-- Every latch of a bound block is the level its pin was last set to (10_state R24). -/
def LatchesTrue (s : State) : Prop :=
  s.bound = true → ∀ p, lastLevel p s.trace = some (latch s p)

end Sys2Proof.Safety
end

