-- ==== Sys2Proof/Certificates/Slice0/Obligations.lean ====
section
/-! DEFINITION. The statements for the provers. Each docstring names the rule of spec/ it formalises. `Config.params` and
`Config.misoDraw` are opaque, so every statement holds whatever the OPEN parameters and the slave's draws are. -/

open Sys2Proof Sys2Proof.Machine Sys2Proof.Safety

/-! ### Encoding -/

/-- Decoding an encoded instruction gives it back, for every instruction and every operand (30_encoding R73, R74; the
operand bytes are the model's, log entry 7). -/
def Obligations.DecodeEncodeAgree : Prop :=
  ∀ i : Instr, decode i.format (encode i) = .ok i

/-- Bytes that decode are the encoding of what they decode to, and of that format: each instruction has one spelling
(log entry 7). -/
def Obligations.DecodedBytesAreTheEncoding : Prop :=
  ∀ (f : Format) (bs : List Byte) (i : Instr), decode f bs = .ok i → i.format = f ∧ encode i = bs

/-- Eight words that decode, four requests and four commands, and two that do not: the ordinals of 30_encoding R73 and the
command bytes of 30_encoding R62 to R65 are the spec's. The model's own are the operand bytes after them, values and lengths
(log entry 7), and that a command byte of no listed form is refused (log entry 9). -/
def Obligations.SpecWordsDecode : Prop :=
  decode .hostop [5, 0x05, 0x4C] = .ok (.wreg 0x05 0x4C)
  ∧ decode .hostop [8, 0x00, 0x03] = .ok (.rbit 0x00 3)
  ∧ decode .hostop [17, 0] = .ok (.crc 0)
  ∧ decode .hostop [22] = .ok .poll
  ∧ decode .hostop [24] = .error (.unknownOrdinal 24)
  ∧ decode .cmd8 [0b00000101, 0] = .ok (.cmdReadRegister 5 0)
  ∧ decode .cmd8 [0b00100101, 0] = .ok (.cmdWriteRegister 5 [])
  ∧ decode .cmd8 [0b01100000] = .ok .cmdReadRxPayloadWidth
  ∧ decode .cmd8 [0b01100001, 2] = .ok (.cmdReadRxPayload 2)
  ∧ decode .cmd8 [0b01000000] = .error (.unlistedCommand 0x40)

/-- The command bytes of a read and a write, and their bits in range (30_encoding R62, R63). -/
def Obligations.CommandByteForms : Prop :=
  ∀ addr : Byte, cmdR addr = addr ||| 0x00 ∧ cmdR addr = addr ∧ cmdW addr = addr ||| 0x20
    ∧ (addr.toNat < 32 →
        (cmdR addr).extractLsb' 5 3 = 0b000#3 ∧ (cmdR addr).extractLsb' 0 5 = addr.extractLsb' 0 5
        ∧ (cmdW addr).extractLsb' 5 3 = 0b001#3 ∧ (cmdW addr).extractLsb' 0 5 = addr.extractLsb' 0 5)

/-- What a bus monitor decodes, and the fixed bit 7 of every listed command (30_encoding R66). -/
def Obligations.BusMonitorDecoding : Prop :=
  ∀ c : Byte,
    (c.extractLsb' 5 3 = 0b000#3 → commandForm c = .readRegister (c.extractLsb' 0 5))
    ∧ (c.extractLsb' 5 3 = 0b001#3 → commandForm c = .writeRegister (c.extractLsb' 0 5))
    ∧ (c = 0x60 → commandForm c = .readPayloadWidth)
    ∧ (c = 0x61 → commandForm c = .readPayload)
    ∧ (c.extractLsb' 5 3 ≠ 0b000#3 → c.extractLsb' 5 3 ≠ 0b001#3 → c ≠ 0x60 → c ≠ 0x61 → commandForm c = .unlisted)
    ∧ (commandForm c ≠ .unlisted → c.getLsbD 7 = false)

/-- The bit reversal and its laws (40_transport R81). -/
def Obligations.BitReversalLaws : Prop :=
  (∀ b : Byte, ∀ i : Fin 8, (rev8 b).getLsbD i = b.getLsbD (7 - i)) ∧ (∀ b : Byte, rev8 (rev8 b) = b)
  ∧ rev8 0x00 = 0x00 ∧ rev8 0xFF = 0xFF
  ∧ rev8 0xA5 = 0xA5 ∧ rev8 0x5A = 0x5A ∧ rev8 0x81 = 0x81 ∧ rev8 0x3C = 0x3C
  ∧ rev8 0x01 = 0x80 ∧ rev8 0x25 = 0xA4 ∧ rev8 0xA7 = 0xE5

/-! ### Transport -/

/-- The laws of a byte transfer, from any state and for any settle delay: the result's bits are the samples, first sample on top;
a wire loopback returns the byte sent; MOSI carries the byte itself; the result depends on the eight samples only; the clock
ends low, MOSI at bit 0, chip-select as it was; exactly 56 events (40_transport R84, R85). -/
def Obligations.TransferLaws : Prop :=
  ∀ (T : Nat) (out : Byte) (s : State),
    let r := (transfer T out s).1
    let t := (transfer T out s).2
    (∀ k : Nat, k < 8 → r.getLsbD (7 - k) = sample s k)
    ∧ ((∀ k : Nat, k < 8 → sample s k = out.getLsbD (7 - k)) → r = out)
    ∧ wireBytes (mosiLevels (newEvents s t)) = [out]
    ∧ (∀ (T' : Nat) (out' : Byte) (s' : State), (∀ k : Nat, k < 8 → sample s' k = sample s k) →
        (transfer T' out' s').1 = r)
    ∧ t.sck = false ∧ t.mosi = out.getLsbD 0 ∧ t.csn = s.csn
    ∧ t.trace = s.trace ++ newEvents s t ∧ (newEvents s t).length = 56

/-- TRANSFER_BYTE: refused where chip-select is high, as it is between operations (60_exceptions R145; 10_state R37); performed
where it is low, with the sampled byte as its RESULT (40_transport R82). That a request is performed there is the model's
reading (log entry 11). -/
def Obligations.TransferRequest : Prop :=
  ∀ (out : Byte) (s : State), Ready s →
    (s.csn = true → exec (.xfer out) s = .refused .unframed)
    ∧ (s.csn = false →
        exec (.xfer out) s =
          .next (ended (returned (.byte (sampledByte s 0)) (afterTransfer Config.params.tSettle out (enter s)))))

/-- writeCommand is one frame of any command byte and any payload, the empty one too (40_transport R88 to R90; 30_encoding
R72). -/
def Obligations.WriteCommandFrame : Prop :=
  ∀ (cmd : Byte) (data : List Byte) (s : State), Ready s →
    exec (.wcmd cmd data) s = .next (ended (afterFrame Config.params.tSettle cmd data (enter s)))

/-- The wire command forms: one frame each, opened by the command byte of the form, with no RESULT (30_encoding R62 to
R65, R67; log entry 9). Before begin each faults with its command byte, which is the model's choice (log entry 9). -/
def Obligations.WireCommandFrames : Prop :=
  (∀ (a : RegAddr) (n : Nat) (data : List Byte) (s : State), Ready s →
    exec (.cmdReadRegister a n) s
        = .next (ended (afterRead Config.params.tSettle (regByte a) n (enter s)))
    ∧ exec (.cmdWriteRegister a data) s
        = .next (ended (afterFrame Config.params.tSettle (regByte a ||| 0x20) data (enter s)))
    ∧ exec .cmdReadRxPayloadWidth s = .next (ended (afterRead Config.params.tSettle 0x60 1 (enter s)))
    ∧ exec (.cmdReadRxPayload n) s = .next (ended (afterRead Config.params.tSettle 0x61 n (enter s))))
  ∧ ∀ (i : Instr) (s : State), i.format = .cmd8 → s.busy = false → s.bound = false →
      ∃ c, (encode i).head? = some c ∧ exec i s = .fault (.notBoundCommand c)

/-! ### Register access -/

/-- readRegister of `len` bytes: one read frame, and the sampled payload returned (41_register_access R97). -/
def Obligations.ReadRegisterNResult : Prop :=
  ∀ (addr : Byte) (len : Nat) (s : State), Ready s →
    exec (.rregn addr len) s =
      .next (ended (returned (.bytes (reply s 8 len)) (afterRead Config.params.tSettle addr len (enter s))))

/-- readRegister of one byte (41_register_access R98). -/
def Obligations.ReadRegisterResult : Prop :=
  ∀ (addr : Byte) (s : State), Ready s →
    exec (.rreg addr) s =
      .next (ended (returned (.byte (sampledByte s 8)) (afterRead Config.params.tSettle addr 1 (enter s))))

/-- writeRegister of the first `len` bytes of a buffer; a shorter buffer is refused (41_register_access R99; 30_encoding
R74). -/
def Obligations.WriteRegisterNFrame : Prop :=
  ∀ (addr : Byte) (buf : List Byte) (len : Nat) (s : State), Ready s →
    (len ≤ buf.length →
      exec (.wregn addr buf len) s =
        .next (ended (afterFrame Config.params.tSettle (addr ||| 0x20) (buf.take len) (enter s))))
    ∧ (buf.length < len → exec (.wregn addr buf len) s = .refused .shortBuffer)

/-- writeRegister of one byte (41_register_access R100). -/
def Obligations.WriteRegisterFrame : Prop :=
  ∀ (addr value : Byte) (s : State), Ready s →
    exec (.wreg addr value) s =
      .next (ended (afterFrame Config.params.tSettle (addr ||| 0x20) [value] (enter s)))

/-- setBit and clearBit: a read frame, then a write frame of the byte read with the bit set, or cleared (41_register_access
R101 to R103). -/
def Obligations.SetClearBitTwoFrames : Prop :=
  ∀ (addr bitIndex : Byte) (s : State), Ready s → bitIndex.toNat ≤ 7 →
    exec (.setb addr bitIndex) s =
      .next (ended (afterRmw Config.params.tSettle addr (fun v => v ||| (1 : Byte) <<< bitIndex.toNat) (enter s)))
    ∧ exec (.clrb addr bitIndex) s =
      .next (ended (afterRmw Config.params.tSettle addr (fun v => v &&& ~~~((1 : Byte) <<< bitIndex.toNat)) (enter s)))

/-- readBit: one read frame, and the bit of the byte read returned (41_register_access R106). -/
def Obligations.ReadBitResult : Prop :=
  ∀ (addr bitIndex : Byte) (s : State), Ready s → bitIndex.toNat ≤ 7 →
    exec (.rbit addr bitIndex) s =
      .next (ended (returned (.bit ((sampledByte s 8).getLsbD bitIndex.toNat))
        (afterRead Config.params.tSettle addr 1 (enter s))))

/-- The payload-width read and the payload read (41_register_access R109, R110). -/
def Obligations.PayloadReadResults : Prop :=
  ∀ (len : Nat) (s : State), Ready s →
    exec .rplw s =
      .next (ended (returned (.byte (sampledByte s 8)) (afterRead Config.params.tSettle 0x60 1 (enter s))))
    ∧ exec (.rpl len) s =
      .next (ended (returned (.bytes (reply s 8 len)) (afterRead Config.params.tSettle 0x61 len (enter s))))

/-- The pseudo-operations: each pair has the same events and the same value returned (30_encoding R78). That the value is a
list of one byte for READ_REGISTER_N, where it is a byte for READ_REGISTER and the payload-width read, is the model's choice (log
entry 21): there the last events differ in this and in nothing else. -/
def Obligations.PseudoOperationPairs : Prop :=
  ∀ (addr value : Byte) (len : Nat) (s : State), Ready s →
    (∃ (u : State) (v : Byte), exec (.rregn addr 1) s = .next (ended (returned (.bytes [v]) u))
      ∧ exec (.rreg addr) s = .next (ended (returned (.byte v) u)))
    ∧ exec (.wregn addr [value] 1) s = exec (.wreg addr value) s
    ∧ (∃ (u : State) (v : Byte), exec (.rregn 0x60 1) s = .next (ended (returned (.bytes [v]) u))
      ∧ exec .rplw s = .next (ended (returned (.byte v) u)))
    ∧ exec (.rregn 0x61 len) s = exec (.rpl len) s

/-! ### Radio control -/

/-- powerUp and shutDown: one read-modify-write of the power bit (42_radio_control R114 to R116). -/
def Obligations.PowerBitCommands : Prop :=
  ∀ s : State, Ready s →
    exec .pwrup s =
      .next (ended (afterRmw Config.params.tSettle (regByte Config.params.regConfig)
        (fun v => v ||| mask Config.params.bitPwr) (enter s)))
    ∧ exec .pwrdn s =
      .next (ended (afterRmw Config.params.tSettle (regByte Config.params.regConfig)
        (fun v => v &&& ~~~(mask Config.params.bitPwr)) (enter s)))

/-- setModeRX: chip-enable low, the read-modify-write of PRIM_RX, chip-enable high, in this order (42_radio_control
R118). -/
def Obligations.SetModeRxSequence : Prop :=
  ∀ s : State, Ready s →
    exec .rxmode s =
      .next (ended (afterCe true (afterRmw Config.params.tSettle (regByte Config.params.regConfig)
        (fun v => v ||| mask Config.params.bitPrimRx) (afterCe false (enter s)))))

/-- setCh: one write frame that carries the channel unchanged (42_radio_control R119). -/
def Obligations.SetChannelFrame : Prop :=
  ∀ (channel : Byte) (s : State), Ready s →
    exec (.ch channel) s =
      .next (ended (afterFrame Config.params.tSettle (cmdW (regByte Config.params.regCh)) [channel] (enter s)))

/-- setDataRate: the frames of the form the parameter names, with the field code of the rate (42_radio_control R120, R121;
30_encoding R71). The byte that a form writes has the level it puts in the bit it puts it, and every other bit as read. -/
def Obligations.SetDataRateForms : Prop :=
  ∀ (rate : DataRate) (s : State), Ready s →
    exec (.dr rate) s = .next (ended (afterSetDataRate Config.params rate (enter s)))
    ∧ (rate = .dr1M → rateCode rate = (false, false)) ∧ (rate = .dr2M → rateCode rate = (false, true))
    ∧ (rate = .dr250K → rateCode rate = (true, true))
    ∧ (∀ v : Byte,
        let w := putRateIn v Config.params.bitDrHi Config.params.bitDrLo (rateCode rate).1 (rateCode rate).2
        w.getLsbD Config.params.bitDrHi = (rateCode rate).1 ∧ w.getLsbD Config.params.bitDrLo = (rateCode rate).2
        ∧ ∀ j : BitPos, j ≠ Config.params.bitDrHi → j ≠ Config.params.bitDrLo → w.getLsbD j = v.getLsbD j)
    ∧ (∀ (v : Byte) (i : BitPos) (level : Bool),
        (putBitIn v i level).getLsbD i = level
        ∧ ∀ j : BitPos, j ≠ i → (putBitIn v i level).getLsbD j = v.getLsbD j)

/-- getDataRate: the read frames of the form the parameter names, no write, and the decoded rate, with the unreachable
pair read as 2 Mbps (42_radio_control R122, R123). That there are three forms is log entry 14. -/
def Obligations.GetDataRateForms : Prop :=
  ∀ s : State, Ready s →
    exec .gdr s =
      .next (ended (returned (.rate (rateRead Config.params s)) (afterGetDataRate Config.params (enter s))))
    ∧ rateOfCode false false = .dr1M ∧ rateOfCode true true = .dr250K
    ∧ rateOfCode false true = .dr2M ∧ rateOfCode true false = .dr2M

/-- setCRCSize: 0 clears and 2 sets the enable bit, 1 makes no pin event at all, more than 2 is refused (42_radio_control
R125; 60_exceptions R142). -/
def Obligations.SetCrcSizeCases : Prop :=
  ∀ (n : Byte) (s : State), Ready s →
    (n = 0 → exec (.crc n) s = .next (ended (afterRmw Config.params.tSettle (regByte Config.params.regConfig)
      (fun v => v &&& ~~~(mask Config.params.bitCrcEn)) (enter s))))
    ∧ (n = 1 → exec (.crc n) s = .next (ended (enter s)))
    ∧ (n = 2 → exec (.crc n) s = .next (ended (afterRmw Config.params.tSettle (regByte Config.params.regConfig)
      (fun v => v ||| mask Config.params.bitCrcEn) (enter s))))
    ∧ (2 < n.toNat → exec (.crc n) s = .refused .crcSize)

/-- enableDynAck and disableDynAck: one read-modify-write of the dynamic-ack bit (42_radio_control R126, R127). -/
def Obligations.DynAckCommands : Prop :=
  ∀ s : State, Ready s →
    exec .dynackOn s =
      .next (ended (afterRmw Config.params.tSettle (regByte Config.params.regDynack)
        (fun v => v ||| mask Config.params.bitDynack) (enter s)))
    ∧ exec .dynackOff s =
      .next (ended (afterRmw Config.params.tSettle (regByte Config.params.regDynack)
        (fun v => v &&& ~~~(mask Config.params.bitDynack)) (enter s)))

/-- setRxPayloadWidth: one write frame to the register of the pipe modulo 6, the width unchanged; so pipe 8 is pipe 2, for
every table of addresses (42_radio_control R128, R129). -/
def Obligations.PayloadWidthPipeModulo : Prop :=
  ∀ (pipe width : Byte) (s : State), Ready s →
    exec (.plw pipe width) s =
      .next (ended (afterFrame Config.params.tSettle
        (cmdW (regByte (Config.params.rxPw[pipe.toNat % 6]'(Nat.mod_lt _ (by decide))))) [width] (enter s)))
    ∧ exec (.plw 8 width) s = exec (.plw 2 width) s

/-! ### Receive -/

/-- setReceiveCallback writes the slot and nothing else, with no event, bound or not (42_radio_control R131). -/
def Obligations.HandlerRegistration : Prop :=
  ∀ (handler : Option Handler) (s : State), s.busy = false →
    exec (.onrx handler) s = .next (ended { enter s with rxHandler := handler })

/-- poll: one read frame of the status register; with the bit clear nothing more; with it set, NOTIFY where a handler is
registered, and the clear at once where none is (42_radio_control R132, R133). The model's own are the open window, an entry
of `windows`, and that the step ends there with the block idle (log entry 12), and the handle that NOTIFY carries (log entry
21). -/
def Obligations.PollCases : Prop :=
  ∀ s : State, Ready s →
    let read := afterRead Config.params.tSettle (cmdR (regByte Config.params.regStatus)) 1 (enter s)
    exec .poll s =
      .next (if (sampledByte s 8).getLsbD Config.params.bitRxReady then
          match s.rxHandler with
          | some h => ended { read with
              trace := read.trace ++ [.notify h], pc := read.pc + 1, windows := (read.pc + 1) :: s.windows }
          | none => ended (afterClear Config.params read)
        else ended read)

/-- The handler's return ends the innermost window: poll goes on, at its own place, with the clear, and ends
(42_radio_control R133; 60_exceptions R148). The resumed poll does so for all parameters. The window and the host input are
the model's (log entry 12). -/
def Obligations.HandlerReturnClears : Prop :=
  ∀ (s : State) (pc : Nat) (outer : List Nat), s.busy = false → s.windows = pc :: outer →
    (∀ rest, s.inbox = .handlerReturn :: rest →
      step s = .next (ended (afterClear Config.params
        { s with inbox := rest, windows := outer, busy := true, pc := pc })))
    ∧ ∀ P : Params, resumePoll P s = .next (ended (afterClear P { s with windows := outer, busy := true, pc := pc }))

/-- ClearReady, from any state and for all parameters, so with a handler or without: its last frame is a write of the status
register whose payload has a 1 in the data-ready bit; in the form CLEAR_BY_WRITE that frame is all, and its payload is the
mask, with every other bit 0; in the form CLEAR_BY_SETBIT a read frame precedes it, and its payload is the byte read with the bit
set and every other bit as read (42_radio_control R134). -/
def Obligations.ClearWritesOne : Prop :=
  ∀ (P : Params) (s : State),
    let t := clearReady P s
    ∃ v : Byte,
      (framesOf (newEvents s t)).getLast? = some [cmdW (regByte P.regStatus), v]
      ∧ v.getLsbD P.bitRxReady = true
      ∧ (∀ j : BitPos, j ≠ P.bitRxReady →
          v.getLsbD j = if P.pollClearForm = .clearByWrite then false else (sampledByte s 8).getLsbD j)
      ∧ (P.pollClearForm = .clearByWrite →
          framesOf (newEvents s t) = [[cmdW (regByte P.regStatus), mask P.bitRxReady]])
      ∧ (P.pollClearForm = .clearBySetbit →
          framesOf (newEvents s t) = [[cmdR (regByte P.regStatus), 0],
            [cmdW (regByte P.regStatus), sampledByte s 8 ||| mask P.bitRxReady]])

/-- Inside a NOTIFY window the handler's requests are admitted, a nested poll too (42_radio_control R133; 60_exceptions R148).
That an open window is an entry of `windows` is the model's (log entry 12). -/
def Obligations.NotifyWindowAdmits : Prop :=
  ∀ (s t : State), Ready s → exec .poll s = .next t → t.windows ≠ s.windows →
    Ready t ∧ (∃ u, exec .rplw t = .next u) ∧ (∀ len, ∃ u, exec (.rpl len) t = .next u) ∧ ∃ u, exec .poll t = .next u

/-! ### Begin -/

/-- begin on an unbound block: the binding, the pin initialisation, the recipe, chip-enable high (70_reset_and_hazards
R151). Without given pins the model's pin parameters are bound (30_encoding R77; log entry 8). -/
def Obligations.BeginSequence : Prop :=
  ∀ (pins : Option Pins) (s : State), s.busy = false → s.bound = false → (∀ p, pins = some p → p.distinct = true) →
    exec (.beginPins pins) s =
      .next (ended (afterBegin Config.params (pins.getD Config.params.pins) (enter s)))

/-- begin's events: the ten of the pin initialisation; those of the first nineteen steps of the recipe, which do not drive
chip-enable; those of the last step, which drive it only where that step is SET_MODE_RX, and then end with it high; then
chip-enable high (70_reset_and_hazards R152, R155). -/
def Obligations.BeginEvents : Prop :=
  ∀ (pins : Option Pins) (s t : State), exec (.beginPins pins) s = .next t →
    let before := recipeState Config.params (pins.getD Config.params.pins) (enter s)
    let first := newEvents (before 0) (before 19)
    let last := newEvents (before 19) (before 20)
    t.trace = s.trace ++ (pinInitEvents ++ (first ++ (last ++ [.set .ce true])))
    ∧ (∀ l, Event.set .ce l ∉ first)
    ∧ (∀ l, Event.set .ce l ∈ last → Config.params.recipe[19] = .setModeRX)
    ∧ (Config.params.recipe[19] = .setModeRX → last.getLast? = some (.set .ce true))

/-- The state after begin (70_reset_and_hazards R157; 10_state R23, R36): bound, the pins taken, the directions set,
chip-select and chip-enable high, the clock low, MOSI at the last level driven, not busy, the handler slot unchanged. -/
def Obligations.StateAfterBegin : Prop :=
  ∀ (pins : Option Pins) (s t : State), exec (.beginPins pins) s = .next t →
    t.bound = true ∧ t.pins = some (pins.getD Config.params.pins) ∧ t.dir = boundDirs
    ∧ t.csn = true ∧ t.sck = false ∧ t.ce = true ∧ t.busy = false ∧ t.rxHandler = s.rxHandler
    ∧ ∃ w : Byte, (framesOf (newEvents s t)).flatten.getLast? = some w ∧ t.mosi = w.getLsbD 0

/-- The fixed part of begin's frames: those of the twenty steps in order, of which the calibration blocks S4 to S9 are one write
frame each, of 5, 5, 3, 1, 6 and 3 payload bytes, and S17 and S18 one frame each with the fixed addresses
(70_reset_and_hazards R154). -/
def Obligations.BeginFixedFrames : Prop :=
  ∀ (pins : Option Pins) (s t : State), exec (.beginPins pins) s = .next t →
    let before := recipeState Config.params (pins.getD Config.params.pins) (enter s)
    let frames := fun k => framesOf (newEvents (before k) (before (k + 1)))
    framesOf (newEvents s t) = (List.range 20).flatMap frames
    ∧ (List.range 6).map (fun j => (frames (3 + j)).map List.length) = [[6], [6], [4], [2], [7], [4]]
    ∧ (∃ c, frames 16 = [[c, 0xA7, 0x93, 0xB4, 0x55, 0xAA]])
    ∧ (∃ c, frames 17 = [[c, 0x81, 0xC6, 0xB2, 0xAA, 0x55]])

/-! ### Faults and refusals -/

/-- A request before begin faults with its ordinal, before any event; BEGIN and SET_RECEIVE_CALLBACK do not
(60_exceptions R138). -/
def Obligations.NotBoundFault : Prop :=
  ∀ (i : Instr) (n : Nat) (s : State), i.ordinal? = some n → s.busy = false → s.bound = false →
    (n ≠ 23 → n ≠ 21 → exec i s = .fault (.notBound n))
    ∧ (n = 23 ∨ n = 21 → ∀ f, exec i s ≠ .fault f)

/-- While an operation runs every request is refused as concurrent, whatever its arguments and whatever else would stop it
(60_exceptions R143, R147). The model's own are that a wire command form is refused so too (log entry 9), and that a request
of a second context is an item of its own kind, which finds the block busy (log entry 13). -/
def Obligations.ConcurrentRefused : Prop :=
  (∀ (i : Instr) (s : State), s.busy = true → exec i s = .refused .concurrent)
  ∧ ∀ (s : State) (i : Instr) (bs : List Byte) (rest : List HostInput),
      s.inbox = .overlap bs :: rest → decode .hostop bs = .ok i → step s = .refused .concurrent

/-- The argument refusals of a bound block: a bit index above 7, a CRC size above 2, a short buffer (60_exceptions R141,
R142; 30_encoding R74), and those of BEGIN, in their order (60_exceptions R144, R147). -/
def Obligations.ArgumentRefusals : Prop :=
  ∀ (s : State) (addr b n : Byte) (buf : List Byte) (len : Nat), s.busy = false →
    (s.bound = true → 7 < b.toNat →
      exec (.setb addr b) s = .refused .bitIndex ∧ exec (.clrb addr b) s = .refused .bitIndex
      ∧ exec (.rbit addr b) s = .refused .bitIndex)
    ∧ (s.bound = true → 2 < n.toNat → exec (.crc n) s = .refused .crcSize)
    ∧ (s.bound = true → buf.length < len → exec (.wregn addr buf len) s = .refused .shortBuffer)
    ∧ (s.bound = true → ∀ pins, exec (.beginPins pins) s = .refused .rebegin)
    ∧ (s.bound = false → ∀ p : Pins, p.distinct = false → exec (.beginPins (some p)) s = .refused .pinAlias)

/-- Bytes that are no instruction are refused as unknown, before every other outcome (60_exceptions R140, R147). Of a wire
command this is the model's choice (log entry 9). -/
def Obligations.UnknownRefused : Prop :=
  ∀ (s : State) (bs : List Byte) (rest : List HostInput) (e : DecodeError),
    (s.inbox = .request bs :: rest ∨ s.inbox = .overlap bs :: rest → decode .hostop bs = .error e →
      step s = .refused (.unknown e))
    ∧ (s.inbox = .command bs :: rest → decode .cmd8 bs = .error e → step s = .refused (.unknown e))

/-- No other outcome: a well-formed instruction of a bound, idle block completes, whatever the slave drives, but for a
transfer outside a frame and a second BEGIN (60_exceptions R136, R140). -/
def Obligations.WellFormedNeverStops : Prop :=
  ∀ (i : Instr) (s : State), Ready s → i.wellFormed = true → (∀ out, i ≠ .xfer out) → (∀ p, i ≠ .beginPins p) →
    ∃ t, exec i s = .next t ∧ Ready t

/-- A request before begin ends the run with its fault, which keeps the request's ordinal: however many steps more are asked
for and whatever the host has sent behind it, no further request is performed (60_exceptions R138, R139). That the record is
the outcome of the step is log entry 16, and the inbox is log entry 6. -/
def Obligations.FaultIsFinal : Prop :=
  ∀ (s : State) (i : Instr) (n : Nat) (bs : List Byte) (rest : List HostInput), s.busy = false → s.bound = false →
    s.inbox = .request bs :: rest → decode .hostop bs = .ok i → i.ordinal? = some n → n ≠ 21 → n ≠ 23 →
    step s = .fault (.notBound n) ∧ ∀ k, core.run (k + 1) s = .fault (Fault.notBound n)

/-! ### The step -/

/-- A step runs the decoded instruction, with the item taken from the inbox: a request or a wire command as it stands, a
request of a second context as one that finds the block busy. With nothing from the host nothing changes (60_exceptions
R150). The model's own are the inbox and its empty case (log entry 6), that a wire command form is an item and an instruction
of its own (log entry 9), and that a second context's request runs on the state made busy (log entry 13). -/
def Obligations.StepRunsDecoded : Prop :=
  ∀ (s : State) (i : Instr) (bs : List Byte) (rest : List HostInput),
    (s.inbox = .request bs :: rest → decode .hostop bs = .ok i → step s = exec i { s with inbox := rest })
    ∧ (s.inbox = .command bs :: rest → decode .cmd8 bs = .ok i → step s = exec i { s with inbox := rest })
    ∧ (s.inbox = .overlap bs :: rest → decode .hostop bs = .ok i →
        step s = exec i { s with inbox := rest, busy := true })
    ∧ (s.inbox = [] → step s = .next s)

/-! ### Reset and invariants -/

/-- What reset leaves of the values the spec gives (10_state R36): unbound pins, bound 0, busy 0, the handler absent. -/
def Obligations.ResetValues : Prop :=
  State.reset.pins = none ∧ State.reset.bound = false ∧ State.reset.busy = false ∧ State.reset.rxHandler = none

/-- Reset meets the invariants. -/
def Obligations.ResetMeetsInvariants : Prop := AtRest State.reset ∧ CleanBus State.reset ∧ LatchesTrue State.reset

/-- Between operations chip-select is high, the clock low and the block not busy, the pins bound and distinct, their
directions fixed: every step keeps it (10_state R28, R37). -/
def Obligations.StepKeepsRest : Prop :=
  ∀ s t : State, AtRest s → step s = .next t → AtRest t

/-- No step ever violates the frame and bit-cell formats on the bus: chip-select falls only to open a frame, whole transfers of
seven-event cells fill it, it rises before the operation ends, and nothing else happens inside (30_encoding R67, R68;
20_memory R48; 70_reset_and_hazards R161). -/
def Obligations.StepKeepsBusClean : Prop :=
  ∀ s t : State, AtRest s → CleanBus s → step s = .next t → CleanBus t

/-- Every latch is the level its pin was last set to; every step keeps it (10_state R24). -/
def Obligations.StepKeepsLatchesTrue : Prop :=
  ∀ s t : State, LatchesTrue s → step s = .next t → LatchesTrue t

/-- A step only adds events to the trace, and once bound the block stays bound, with the same pins and directions
(00_scope R15; 10_state R21 to R23; 70_reset_and_hazards R158). -/
def Obligations.BindingIsForGood : Prop :=
  ∀ s t : State, step s = .next t →
    (∃ es, t.trace = s.trace ++ es)
    ∧ (s.bound = true → t.bound = true ∧ t.pins = s.pins ∧ t.dir = s.dir)

/-- The frame of every instruction but BEGIN, in any state where it answers a next state: the binding, the directions and
the inbox are as before; the windows are unless it is POLL, the handler slot unless it is SET_RECEIVE_CALLBACK, chip-enable unless
it is SET_MODE_RX; the block is not busy; the trace only grows, and the slave's levels are used up by the samples among the
new events (10_state R21 to R23, R29, R30; log entry 2). -/
def Obligations.InstructionFrame : Prop :=
  ∀ (i : Instr) (s t : State), (∀ p, i ≠ .beginPins p) → exec i s = .next t →
    t.pins = s.pins ∧ t.bound = s.bound ∧ t.dir = s.dir ∧ t.inbox = s.inbox ∧ t.busy = false
    ∧ (i ≠ .poll → t.windows = s.windows) ∧ ((∀ h, i ≠ .onrx h) → t.rxHandler = s.rxHandler)
    ∧ (i ≠ .rxmode → t.ce = s.ce)
    ∧ t.trace = s.trace ++ newEvents s t
    ∧ t.drawn = s.drawn + samplesIn (newEvents s t) ∧ t.misoIn = s.misoIn.drop (samplesIn (newEvents s t))

/-- The event index counts an operation's events from 0 (10_state R27). That the state holds it is the model's (log entry
5). -/
def Obligations.EventIndexCounts : Prop :=
  ∀ (i : Instr) (s t : State), exec i s = .next t → ∃ es, t.trace = s.trace ++ es ∧ t.pc = es.length

/-! ### Whole-machine rules -/

/-- Chip-enable is driven by setModeRX and begin only: every other instruction, and the handler's return, leaves the latch and
adds no such event (42_radio_control R117). -/
def Obligations.ChipEnableWriters : Prop :=
  (∀ (i : Instr) (s t : State), i ≠ .rxmode → (∀ p, i ≠ .beginPins p) → exec i s = .next t →
    t.ce = s.ce ∧ ∀ l, Event.set .ce l ∉ newEvents s t)
  ∧ (∀ s t : State, returnFromHandler s = .next t → t.ce = s.ce ∧ ∀ l, Event.set .ce l ∉ newEvents s t)
  ∧ (∀ s t : State, exec .rxmode s = .next t → t.ce = true)
  ∧ (∀ (pins : Option Pins) (s t : State), exec (.beginPins pins) s = .next t → t.ce = true)

/-- The handler slot is written by setReceiveCallback only, and the handler is called by poll only (10_state R30). The last
clause, that NOTIFY is of the handler in the slot, rests on the handle that the model's event carries: the spec's NOTIFY
names no handler (log entry 21). -/
def Obligations.HandlerSlotUse : Prop :=
  (∀ (i : Instr) (s t : State), (∀ h, i ≠ .onrx h) → exec i s = .next t → t.rxHandler = s.rxHandler)
  ∧ (∀ (i : Instr) (s t : State), i ≠ .poll → exec i s = .next t → ∀ h, Event.notify h ∉ newEvents s t)
  ∧ (∀ s t : State, returnFromHandler s = .next t →
      t.rxHandler = s.rxHandler ∧ ∀ h, Event.notify h ∉ newEvents s t)
  ∧ (∀ s t : State, exec .poll s = .next t → ∀ h, Event.notify h ∈ newEvents s t → s.rxHandler = some h)

/-- No operation reads IRQ (10_state R25; 40_transport R94). -/
def Obligations.IrqNeverRead : Prop :=
  ∀ (s t : State) (v : Level), step s = .next t → Event.get .irq v ∉ newEvents s t

/-- No operation waits while chip-select is high (70_reset_and_hazards R162, R171). -/
def Obligations.NoWaitBetweenFrames : Prop :=
  ∀ (i : Instr) (s t : State), s.csn = true → exec i s = .next t → waitsWhileHigh true (newEvents s t) = 0

/-- The frames and the events of each operation of the register layer (41_register_access R112): a RESULT is one event
more. -/
def Obligations.EventCounts : Prop :=
  ∀ (s : State) (addr value b : Byte) (buf : List Byte) (n : Nat), Ready s → b.toNat ≤ 7 →
    let count := fun (i : Instr) (frames events : Nat) =>
      ∃ t, exec i s = .next t ∧ (framesOf (newEvents s t)).length = frames ∧ (newEvents s t).length = events
    count (.rregn addr n) 1 (2 + 56 * (n + 1) + 1) ∧ count (.rreg addr) 1 (114 + 1)
    ∧ (n ≤ buf.length → count (.wregn addr buf n) 1 (2 + 56 * (n + 1))) ∧ count (.wreg addr value) 1 114
    ∧ count (.setb addr b) 2 228 ∧ count (.clrb addr b) 2 228 ∧ count (.rbit addr b) 1 (114 + 1)
    ∧ count .rplw 1 (114 + 1) ∧ count (.rpl n) 1 (2 + 56 * (n + 1) + 1)

/-- The time that is taken at least, for every settle delay and from every state: 24 settle delays for the transfer of any
byte, 24(n+1) for any frame of n payload bytes, 96 for the read-modify-write of any bit (70_reset_and_hazards R169); and so
for the requests that are one such frame or read-modify-write. -/
def Obligations.MinimumTimes : Prop :=
  (∀ (T : Nat) (s : State),
    (∀ out, minTime (newEvents s (transfer T out s).2) = 24 * T)
    ∧ (∀ cmd data, minTime (newEvents s (frame T cmd data s).2) = 24 * (data.length + 1) * T)
    ∧ ∀ addr i, minTime (newEvents s (setBit T addr i s)) = 96 * T
        ∧ minTime (newEvents s (clearBit T addr i s)) = 96 * T)
  ∧ ∀ (s : State) (cmd addr b : Byte) (data : List Byte), Ready s →
    (∃ t, exec (.wcmd cmd data) s = .next t
      ∧ minTime (newEvents s t) = 24 * (data.length + 1) * Config.params.tSettle)
    ∧ (b.toNat ≤ 7 → ∃ t u, exec (.setb addr b) s = .next t ∧ exec (.clrb addr b) s = .next u
      ∧ minTime (newEvents s t) = 96 * Config.params.tSettle ∧ minTime (newEvents s u) = 96 * Config.params.tSettle)

/-- What the operations without a read-modify-write and without a branch on a sampled bit do on the bus does not depend on what
the slave drives: two runs that differ only there have the same events but for the sampled levels and the values returned
(40_transport R95). Each is one frame, but for a TRANSFER_BYTE, which is no frame (where it is performed: log entry 11), and
GET_DATA_RATE, which is two in two of its forms. -/
def Obligations.FramesIgnoreSamples : Prop :=
  ∀ (i : Instr) (s t s' t' : State), SameBlock s t →
    (∃ cmd data, i = .wcmd cmd data) ∨ (∃ a n, i = .rregn a n) ∨ (∃ a, i = .rreg a) ∨ (∃ a l n, i = .wregn a l n)
      ∨ (∃ a v, i = .wreg a v) ∨ (∃ a b, i = .rbit a b) ∨ i = .rplw ∨ (∃ n, i = .rpl n) ∨ (∃ c, i = .ch c)
      ∨ (∃ p w, i = .plw p w) ∨ i = .gdr ∨ (∃ b, i = .xfer b) ∨ i.format = .cmd8 →
    exec i s = .next s' → exec i t = .next t' →
    s'.trace.map blind = t'.trace.map blind

/-- The calls on the host go to the bound pins, in trace order (00_scope R11; 10_state R21; 70_reset_and_hazards R173). Each
event is the call of its kind on the handle bound to its role, a wait is the host's sleep, and NOTIFY and RESULT are no such
call; an instruction of a bound block, the handler's return and a step add the calls of their own events; BEGIN's are its ten
of the pin initialisation, those of the recipe's events, and chip-enable high (70_reset_and_hazards R152, R155), on the
handles it takes. That the trace names pins by role is log entry 4, and that BEGIN without pins takes the pin parameters is log
entry 8. -/
def Obligations.HostCallsOnBoundPins : Prop :=
  (∀ p : Pins,
    (∀ l : Level,
      hostCall p (.set .sck l) = some (.writeLevel p.sck l) ∧ hostCall p (.set .mosi l) = some (.writeLevel p.mosi l)
      ∧ hostCall p (.set .csn l) = some (.writeLevel p.csn l) ∧ hostCall p (.set .ce l) = some (.writeLevel p.ce l))
    ∧ (∀ d : Dir,
      hostCall p (.dir .sck d) = some (.setDirection p.sck d) ∧ hostCall p (.dir .miso d) = some (.setDirection p.miso d)
      ∧ hostCall p (.dir .mosi d) = some (.setDirection p.mosi d)
      ∧ hostCall p (.dir .csn d) = some (.setDirection p.csn d)
      ∧ hostCall p (.dir .ce d) = some (.setDirection p.ce d) ∧ hostCall p (.dir .irq d) = some (.setDirection p.irq d))
    ∧ (∀ v : Level,
      hostCall p (.get .miso v) = some (.readLevel p.miso v) ∧ hostCall p (.get .irq v) = some (.readLevel p.irq v))
    ∧ (∀ us : Nat, hostCall p (.wait us) = some (.sleep us))
    ∧ (∀ h : Handler, hostCall p (.notify h) = none) ∧ ∀ r : Result, hostCall p (.result r) = none)
  ∧ (∀ (s t : State) (p : Pins), s.pins = some p → s.bound = true →
      ((∃ i, exec i s = .next t) ∨ returnFromHandler s = .next t ∨ step s = .next t) →
      hostCalls t = hostCalls s ++ (newEvents s t).filterMap (hostCall p))
  ∧ ∀ (pins : Option Pins) (s t : State), exec (.beginPins pins) s = .next t →
      let p := pins.getD Config.params.pins
      let before := recipeState Config.params p (enter s)
      hostCalls t = s.trace.filterMap (hostCall p)
        ++ ([.writeLevel p.csn true, .setDirection p.csn .output, .writeLevel p.sck false, .setDirection p.sck .output,
             .writeLevel p.mosi false, .setDirection p.mosi .output, .writeLevel p.ce false, .setDirection p.ce .output,
             .setDirection p.miso .input, .setDirection p.irq .input]
        ++ ((newEvents (before 0) (before 20)).filterMap (hostCall p) ++ [.writeLevel p.ce true]))

/-! ### Laws against the passive register file -/

/-- The laws of the register layer against the passive register file F1 (41_register_access R107): a read after a write
returns the value; after setBit the bit reads 1 and after clearBit 0; and the write changes no other bit. -/
def Obligations.PassiveRegisterLaws : Prop :=
  ∀ (a : RegAddr) (i : BitPos) (v : Byte) (m : PassiveFile) (s : State), Ready s →
    (∃ t u, exec (.wreg (regByte a) v) s = .next t ∧ exec (.rreg (regByte a)) t = .next u
      ∧ (DrivesPassive m s (framesOf (newEvents s u)) → lastEvent? u = some (.result (.byte v))))
    ∧ (∃ t u, exec (.setb (regByte a) (BitVec.ofNat 8 i)) s = .next t
      ∧ exec (.rbit (regByte a) (BitVec.ofNat 8 i)) t = .next u
      ∧ (DrivesPassive m s (framesOf (newEvents s u)) → lastEvent? u = some (.result (.bit true))))
    ∧ (∃ t u, exec (.clrb (regByte a) (BitVec.ofNat 8 i)) s = .next t
      ∧ exec (.rbit (regByte a) (BitVec.ofNat 8 i)) t = .next u
      ∧ (DrivesPassive m s (framesOf (newEvents s u)) → lastEvent? u = some (.result (.bit false))))
    ∧ (∀ (set : Bool) (j : BitPos), j ≠ i →
        ∃ t u, exec (if set then .setb (regByte a) (BitVec.ofNat 8 i) else .clrb (regByte a) (BitVec.ofNat 8 i)) s
            = .next t
          ∧ exec (.rbit (regByte a) (BitVec.ofNat 8 j)) t = .next u
          ∧ (DrivesPassive m s (framesOf (newEvents s u)) →
              lastEvent? u = some (.result (.bit (((m.read a).getD 0 0).getLsbD j)))))

/-- The data-rate law against the passive register file: setDataRate and then getDataRate returns the rate, for all parameters
whose two bits differ, and so in every pair of forms (42_radio_control R113, R124). -/
def Obligations.DataRateRoundTrip : Prop :=
  ∀ (P : Params) (rate : DataRate) (m : PassiveFile) (s : State), P.bitDrHi ≠ P.bitDrLo →
    let read := getDataRate P (setDataRate P rate s)
    DrivesPassive m s (framesOf (newEvents s read.2)) → read.1 = rate
end

