-- ==== Sys2Proof/Laws/Encoding.lean ====
section
/-! SUPPORT. What each operand reader does on the bytes its writer gives, and from what bytes it reads what it reads. -/

namespace Sys2Proof.Laws

open Sys2Proof.Machine

theorem byte_lo (n : Nat) (h : n < 128) : (BitVec.ofNat 8 n).toNat = n := by simp; omega
theorem byte_hi (n : Nat) : (BitVec.ofNat 8 (128 + n % 128)).toNat = 128 + n % 128 := by simp; omega

theorem takeNat_fuel (fuel n : Nat) (h : n < fuel) (rest : List Byte) :
    takeNat (encodeNatFuel fuel n ++ rest) = .ok (n, rest) := by
  induction fuel generalizing n with
  | zero => omega
  | succ fuel ih =>
    rw [encodeNatFuel]
    split
    · rename_i hn
      rw [List.singleton_append, takeNat, byte_lo n hn, if_pos hn]
    · rename_i hn
      rw [List.cons_append, takeNat, byte_hi, if_neg (by omega), ih (n / 128) (by omega)]
      obtain ⟨m, hm⟩ : ∃ m, n / 128 = m + 1 := ⟨n / 128 - 1, by omega⟩
      simp only [hm]
      congr 2
      omega

theorem takeNat_encode (n : Nat) (rest : List Byte) : takeNat (encodeNat n ++ rest) = .ok (n, rest) :=
  takeNat_fuel _ _ (by omega) rest

theorem takeBytes_encode (l rest : List Byte) : takeBytes (encodeBytes l ++ rest) = .ok (l, rest) := by
  simp [takeBytes, encodeBytes, takeNat_encode, andThen]

theorem commandForm_read (a : RegAddr) : commandForm (cmdR (regByte a)) = .readRegister a := by revert a; decide
theorem commandForm_write (a : RegAddr) : commandForm (cmdW (regByte a)) = .writeRegister a := by revert a; decide

/-! ### Reading back -/

theorem andThen_ok {α β : Type} {x : Parsed α} {k : α → List Byte → Parsed β} {r : β × List Byte}
    (h : andThen x k = .ok r) : ∃ a rest, x = .ok (a, rest) ∧ k a rest = .ok r := by
  unfold andThen at h
  split at h
  · cases h
  · exact ⟨_, _, rfl, h⟩

theorem encodeNatFuel_congr (f g n : Nat) (hf : n < f) (hg : n < g) : encodeNatFuel f n = encodeNatFuel g n := by
  induction f generalizing g n with
  | zero => omega
  | succ f ih =>
    cases g with
    | zero => omega
    | succ g =>
      simp only [encodeNatFuel]
      split
      · rfl
      · rw [ih g (n/128) (by omega) (by omega)]

theorem takeNat_ok {bs : List Byte} {n : Nat} {rest} (h : takeNat bs = .ok (n, rest)) : bs = encodeNat n ++ rest := by
  induction bs generalizing n rest with
  | nil => cases h
  | cons b bs ih =>
    rw [takeNat] at h
    split at h
    · cases h; rename_i hb; simp [encodeNat, encodeNatFuel, hb]
    · rename_i hb
      split at h
      · cases h
      · cases h
      · rename_i m rest' hm
        cases h
        rw [ih hm]
        have hlt : b.toNat < 256 := b.isLt
        have e1 : (b.toNat - 128 + 128 * (m+1)) / 128 = m + 1 := by omega
        have e2 : (b.toNat - 128 + 128 * (m+1)) % 128 = b.toNat - 128 := by omega
        rw [encodeNat, encodeNat, Nat.succ_eq_add_one, encodeNatFuel.eq_2 (b.toNat - 128 + 128 * (m + 1)),
          if_neg (by omega), e1, e2]
        have : BitVec.ofNat 8 (128 + (b.toNat - 128)) = b := by
          apply BitVec.eq_of_toNat_eq; simp; omega
        rw [this, List.cons_append, encodeNatFuel_congr (m + 1 + 1) (b.toNat - 128 + 128 * (m + 1)) (m + 1) (by omega) (by omega)]

theorem takeByte_ok {bs : List Byte} {b rest} (h : takeByte bs = .ok (b, rest)) : bs = b :: rest := by
  cases bs <;> simp_all [takeByte]

theorem takeBytes_ok {bs : List Byte} {l rest} (h : takeBytes bs = .ok (l, rest)) : bs = encodeBytes l ++ rest := by
  obtain ⟨n, r, h1, h2⟩ := andThen_ok h
  split at h2
  · cases h2
    have := takeNat_ok h1
    simp_all [encodeBytes]
  · cases h2

theorem takeHandler_ok {bs : List Byte} {l rest} (h : takeHandler bs = .ok (l, rest)) : bs = encodeHandler l ++ rest := by
  obtain ⟨b, r, h1, h2⟩ := andThen_ok h
  have := takeByte_ok h1
  subst this
  split at h2
  · rename_i hb; cases h2; have : b = 0 := BitVec.eq_of_toNat_eq hb
    simp [encodeHandler, this]
  · rename_i hb
    obtain ⟨n, r', h3, h4⟩ := andThen_ok h2
    cases h4
    have : b = 1 := BitVec.eq_of_toNat_eq hb
    simp [encodeHandler, this, takeNat_ok h3]
  · cases h2

theorem takeRate_ok {bs : List Byte} {l rest} (h : takeRate bs = .ok (l, rest)) : bs = encodeRate l ++ rest := by
  obtain ⟨b, r, h1, h2⟩ := andThen_ok h
  have := takeByte_ok h1
  subst this
  split at h2
  · rename_i hb; cases h2; have : b = 0 := BitVec.eq_of_toNat_eq hb
    simp [encodeRate, this]
  · rename_i hb; cases h2; have : b = 1 := BitVec.eq_of_toNat_eq hb
    simp [encodeRate, this]
  · rename_i hb; cases h2; have : b = 2 := BitVec.eq_of_toNat_eq hb
    simp [encodeRate, this]
  · cases h2

theorem takePins_ok {bs : List Byte} {l rest} (h : takePins bs = .ok (l, rest)) : bs = encodePins l ++ rest := by
  obtain ⟨b, r, h1, h2⟩ := andThen_ok h
  have := takeByte_ok h1
  subst this
  split at h2
  · rename_i hb; cases h2; have : b = 0 := BitVec.eq_of_toNat_eq hb
    simp [encodePins, this]
  · rename_i hb
    obtain ⟨n, r', h3, h4⟩ := andThen_ok h2
    cases h4
    have : b = 1 := BitVec.eq_of_toNat_eq hb
    obtain ⟨n1, r1, h1, h3⟩ := andThen_ok h3
    obtain ⟨n2, r2, h8, h3⟩ := andThen_ok h3
    obtain ⟨n3, r3, h4, h3⟩ := andThen_ok h3
    obtain ⟨n4, r4, h5, h3⟩ := andThen_ok h3
    obtain ⟨n5, r5, h6, h3⟩ := andThen_ok h3
    obtain ⟨n6, r6, h7, h3⟩ := andThen_ok h3
    cases h3
    simp [encodePins, this, takeNat_ok h1, takeNat_ok h8, takeNat_ok h4, takeNat_ok h5, takeNat_ok h6, takeNat_ok h7]
  · cases h2

theorem takeTwoBytes_ok {mk : Byte → Byte → Instr} {bs : List Byte} {i : Instr} {rest : List Byte}
    (h : takeTwoBytes mk bs = .ok (i, rest)) : ∃ a b, i = mk a b ∧ bs = a :: b :: rest := by
  obtain ⟨a, r, h1, h2⟩ := andThen_ok h
  obtain ⟨b, r', h3, h4⟩ := andThen_ok h2
  cases h4
  exact ⟨a, b, rfl, by rw [takeByte_ok h1, takeByte_ok h3]⟩

/-- What a request is read from is its encoding. -/
theorem takeRequest_ok {bs : List Byte} {i : Instr} {rest : List Byte} (h : takeRequest bs = .ok (i, rest)) :
    i.format = .hostop ∧ bs = encode i ++ rest := by
  cases bs with
  | nil => cases h
  | cons o bs =>
    have ho : ∀ k, k < 256 → o.toNat = k → o = BitVec.ofNat 8 k := fun k hk h => by
      apply BitVec.eq_of_toNat_eq
      simp [h]
      omega
    rw [takeRequest, decodeOperands] at h
    split at h <;> (try (rename_i hb; have hb := ho _ (by decide) hb; subst hb))
    case h_25 => cases h
    all_goals first
      | (cases h; exact ⟨rfl, rfl⟩)
      | (obtain ⟨a, b, rfl, rfl⟩ := takeTwoBytes_ok h; exact ⟨rfl, rfl⟩)
      | (obtain ⟨a, r, h1, h2⟩ := andThen_ok h; cases h2;
         first
          | (rw [takeByte_ok h1]; exact ⟨rfl, rfl⟩)
          | (rw [takeNat_ok h1]; exact ⟨rfl, rfl⟩)
          | (rw [takeRate_ok h1]; exact ⟨rfl, rfl⟩)
          | (rw [takeHandler_ok h1]; exact ⟨rfl, rfl⟩)
          | (rw [takePins_ok h1]; exact ⟨rfl, rfl⟩))
      | (obtain ⟨a, r, h1, h2⟩ := andThen_ok h; obtain ⟨b, r', h3, h2⟩ := andThen_ok h2; cases h2;
         rw [takeByte_ok h1]; first | (rw [takeNat_ok h3]; exact ⟨rfl, rfl⟩) | (rw [takeBytes_ok h3]; exact ⟨rfl, rfl⟩))
      | (obtain ⟨a, r, h1, h2⟩ := andThen_ok h; obtain ⟨b, r', h3, h2⟩ := andThen_ok h2
         obtain ⟨c, r'', h4, h2⟩ := andThen_ok h2; cases h2
         rw [takeByte_ok h1, takeBytes_ok h3, takeNat_ok h4]; exact ⟨rfl, by simp [encode]⟩)

theorem commandForm_inv (c : Byte) :
    (∀ a, commandForm c = .readRegister a → c = cmdR (regByte a))
    ∧ (∀ a, commandForm c = .writeRegister a → c = cmdW (regByte a))
    ∧ (commandForm c = .readPayloadWidth → c = 0x60)
    ∧ (commandForm c = .readPayload → c = 0x61) := by
  revert c; decide

/-- What a wire command is read from is its encoding. -/
theorem takeCommand_ok {bs : List Byte} {i : Instr} {rest : List Byte} (h : takeCommand bs = .ok (i, rest)) :
    i.format = .cmd8 ∧ bs = encode i ++ rest := by
  cases bs with
  | nil => cases h
  | cons c bs =>
    obtain ⟨i1, i2, i3, i4⟩ := commandForm_inv c
    rw [takeCommand] at h
    split at h
    · rename_i a hc
      obtain ⟨a, r, h1, h2⟩ := andThen_ok h; cases h2; rw [i1 _ hc, takeNat_ok h1]; exact ⟨rfl, rfl⟩
    · rename_i a hc
      obtain ⟨a, r, h1, h2⟩ := andThen_ok h; cases h2; rw [i2 _ hc, takeBytes_ok h1]; exact ⟨rfl, rfl⟩
    · rename_i hc
      cases h; rw [i3 hc]; exact ⟨rfl, rfl⟩
    · rename_i hc
      obtain ⟨a, r, h1, h2⟩ := andThen_ok h; cases h2; rw [i4 hc, takeNat_ok h1]; exact ⟨rfl, rfl⟩
    · cases h

end Sys2Proof.Laws
end

