-- ==== Sys2Proof/Laws/State.lean ====
section
/-! SUPPORT. What each update of the state does to each field, one lemma a field, so that no proof unfolds an update. -/

namespace Sys2Proof.Laws

open Sys2Proof.Machine Sys2Proof.Safety

/-! ### `record` -/

@[simp] theorem record_pins (e : Event) (s : State) : (record e s).pins = s.pins := rfl
@[simp] theorem record_bound (e : Event) (s : State) : (record e s).bound = s.bound := rfl
@[simp] theorem record_dir (e : Event) (s : State) : (record e s).dir = s.dir := rfl
@[simp] theorem record_sck (e : Event) (s : State) : (record e s).sck = s.sck := rfl
@[simp] theorem record_mosi (e : Event) (s : State) : (record e s).mosi = s.mosi := rfl
@[simp] theorem record_csn (e : Event) (s : State) : (record e s).csn = s.csn := rfl
@[simp] theorem record_ce (e : Event) (s : State) : (record e s).ce = s.ce := rfl
@[simp] theorem record_tx (e : Event) (s : State) : (record e s).tx = s.tx := rfl
@[simp] theorem record_rx (e : Event) (s : State) : (record e s).rx = s.rx := rfl
@[simp] theorem record_bitcnt (e : Event) (s : State) : (record e s).bitcnt = s.bitcnt := rfl
@[simp] theorem record_busy (e : Event) (s : State) : (record e s).busy = s.busy := rfl
@[simp] theorem record_rxHandler (e : Event) (s : State) : (record e s).rxHandler = s.rxHandler := rfl
@[simp] theorem record_pc (e : Event) (s : State) : (record e s).pc = s.pc + 1 := rfl
@[simp] theorem record_windows (e : Event) (s : State) : (record e s).windows = s.windows := rfl
@[simp] theorem record_trace (e : Event) (s : State) : (record e s).trace = s.trace ++ [e] := rfl
@[simp] theorem record_misoIn (e : Event) (s : State) : (record e s).misoIn = s.misoIn := rfl
@[simp] theorem record_drawn (e : Event) (s : State) : (record e s).drawn = s.drawn := rfl
@[simp] theorem record_inbox (e : Event) (s : State) : (record e s).inbox = s.inbox := rfl

/-! ### `enter` -/

@[simp] theorem enter_pins (s : State) : (enter s).pins = s.pins := rfl
@[simp] theorem enter_bound (s : State) : (enter s).bound = s.bound := rfl
@[simp] theorem enter_dir (s : State) : (enter s).dir = s.dir := rfl
@[simp] theorem enter_sck (s : State) : (enter s).sck = s.sck := rfl
@[simp] theorem enter_mosi (s : State) : (enter s).mosi = s.mosi := rfl
@[simp] theorem enter_csn (s : State) : (enter s).csn = s.csn := rfl
@[simp] theorem enter_ce (s : State) : (enter s).ce = s.ce := rfl
@[simp] theorem enter_tx (s : State) : (enter s).tx = s.tx := rfl
@[simp] theorem enter_rx (s : State) : (enter s).rx = s.rx := rfl
@[simp] theorem enter_bitcnt (s : State) : (enter s).bitcnt = s.bitcnt := rfl
@[simp] theorem enter_busy (s : State) : (enter s).busy = true := rfl
@[simp] theorem enter_rxHandler (s : State) : (enter s).rxHandler = s.rxHandler := rfl
@[simp] theorem enter_pc (s : State) : (enter s).pc = 0 := rfl
@[simp] theorem enter_windows (s : State) : (enter s).windows = s.windows := rfl
@[simp] theorem enter_trace (s : State) : (enter s).trace = s.trace := rfl
@[simp] theorem enter_misoIn (s : State) : (enter s).misoIn = s.misoIn := rfl
@[simp] theorem enter_drawn (s : State) : (enter s).drawn = s.drawn := rfl
@[simp] theorem enter_inbox (s : State) : (enter s).inbox = s.inbox := rfl

/-! ### `ended` -/

@[simp] theorem ended_pins (s : State) : (ended s).pins = s.pins := rfl
@[simp] theorem ended_bound (s : State) : (ended s).bound = s.bound := rfl
@[simp] theorem ended_dir (s : State) : (ended s).dir = s.dir := rfl
@[simp] theorem ended_sck (s : State) : (ended s).sck = s.sck := rfl
@[simp] theorem ended_mosi (s : State) : (ended s).mosi = s.mosi := rfl
@[simp] theorem ended_csn (s : State) : (ended s).csn = s.csn := rfl
@[simp] theorem ended_ce (s : State) : (ended s).ce = s.ce := rfl
@[simp] theorem ended_tx (s : State) : (ended s).tx = s.tx := rfl
@[simp] theorem ended_rx (s : State) : (ended s).rx = s.rx := rfl
@[simp] theorem ended_bitcnt (s : State) : (ended s).bitcnt = s.bitcnt := rfl
@[simp] theorem ended_busy (s : State) : (ended s).busy = false := rfl
@[simp] theorem ended_rxHandler (s : State) : (ended s).rxHandler = s.rxHandler := rfl
@[simp] theorem ended_pc (s : State) : (ended s).pc = s.pc := rfl
@[simp] theorem ended_windows (s : State) : (ended s).windows = s.windows := rfl
@[simp] theorem ended_trace (s : State) : (ended s).trace = s.trace := rfl
@[simp] theorem ended_misoIn (s : State) : (ended s).misoIn = s.misoIn := rfl
@[simp] theorem ended_drawn (s : State) : (ended s).drawn = s.drawn := rfl
@[simp] theorem ended_inbox (s : State) : (ended s).inbox = s.inbox := rfl

/-! ### `returned` -/

@[simp] theorem returned_pins (r : Result) (s : State) : (returned r s).pins = s.pins := rfl
@[simp] theorem returned_bound (r : Result) (s : State) : (returned r s).bound = s.bound := rfl
@[simp] theorem returned_dir (r : Result) (s : State) : (returned r s).dir = s.dir := rfl
@[simp] theorem returned_sck (r : Result) (s : State) : (returned r s).sck = s.sck := rfl
@[simp] theorem returned_mosi (r : Result) (s : State) : (returned r s).mosi = s.mosi := rfl
@[simp] theorem returned_csn (r : Result) (s : State) : (returned r s).csn = s.csn := rfl
@[simp] theorem returned_ce (r : Result) (s : State) : (returned r s).ce = s.ce := rfl
@[simp] theorem returned_tx (r : Result) (s : State) : (returned r s).tx = s.tx := rfl
@[simp] theorem returned_rx (r : Result) (s : State) : (returned r s).rx = s.rx := rfl
@[simp] theorem returned_bitcnt (r : Result) (s : State) : (returned r s).bitcnt = s.bitcnt := rfl
@[simp] theorem returned_busy (r : Result) (s : State) : (returned r s).busy = s.busy := rfl
@[simp] theorem returned_rxHandler (r : Result) (s : State) : (returned r s).rxHandler = s.rxHandler := rfl
@[simp] theorem returned_pc (r : Result) (s : State) : (returned r s).pc = s.pc + 1 := rfl
@[simp] theorem returned_windows (r : Result) (s : State) : (returned r s).windows = s.windows := rfl
@[simp] theorem returned_trace (r : Result) (s : State) : (returned r s).trace = s.trace ++ [.result r] := rfl
@[simp] theorem returned_misoIn (r : Result) (s : State) : (returned r s).misoIn = s.misoIn := rfl
@[simp] theorem returned_drawn (r : Result) (s : State) : (returned r s).drawn = s.drawn := rfl
@[simp] theorem returned_inbox (r : Result) (s : State) : (returned r s).inbox = s.inbox := rfl

/-! ### `afterCe` -/

@[simp] theorem afterCe_pins (l : Level) (s : State) : (afterCe l s).pins = s.pins := rfl
@[simp] theorem afterCe_bound (l : Level) (s : State) : (afterCe l s).bound = s.bound := rfl
@[simp] theorem afterCe_dir (l : Level) (s : State) : (afterCe l s).dir = s.dir := rfl
@[simp] theorem afterCe_sck (l : Level) (s : State) : (afterCe l s).sck = s.sck := rfl
@[simp] theorem afterCe_mosi (l : Level) (s : State) : (afterCe l s).mosi = s.mosi := rfl
@[simp] theorem afterCe_csn (l : Level) (s : State) : (afterCe l s).csn = s.csn := rfl
@[simp] theorem afterCe_ce (l : Level) (s : State) : (afterCe l s).ce = l := rfl
@[simp] theorem afterCe_tx (l : Level) (s : State) : (afterCe l s).tx = s.tx := rfl
@[simp] theorem afterCe_rx (l : Level) (s : State) : (afterCe l s).rx = s.rx := rfl
@[simp] theorem afterCe_bitcnt (l : Level) (s : State) : (afterCe l s).bitcnt = s.bitcnt := rfl
@[simp] theorem afterCe_busy (l : Level) (s : State) : (afterCe l s).busy = s.busy := rfl
@[simp] theorem afterCe_rxHandler (l : Level) (s : State) : (afterCe l s).rxHandler = s.rxHandler := rfl
@[simp] theorem afterCe_pc (l : Level) (s : State) : (afterCe l s).pc = s.pc + 1 := rfl
@[simp] theorem afterCe_windows (l : Level) (s : State) : (afterCe l s).windows = s.windows := rfl
@[simp] theorem afterCe_trace (l : Level) (s : State) : (afterCe l s).trace = s.trace ++ [.set .ce l] := rfl
@[simp] theorem afterCe_misoIn (l : Level) (s : State) : (afterCe l s).misoIn = s.misoIn := rfl
@[simp] theorem afterCe_drawn (l : Level) (s : State) : (afterCe l s).drawn = s.drawn := rfl
@[simp] theorem afterCe_inbox (l : Level) (s : State) : (afterCe l s).inbox = s.inbox := rfl

/-! ### `afterPinInit` -/

@[simp] theorem afterPinInit_pins (p : Pins) (s : State) : (afterPinInit p s).pins = some p := rfl
@[simp] theorem afterPinInit_bound (p : Pins) (s : State) : (afterPinInit p s).bound = true := rfl
@[simp] theorem afterPinInit_dir (p : Pins) (s : State) : (afterPinInit p s).dir = boundDirs := rfl
@[simp] theorem afterPinInit_sck (p : Pins) (s : State) : (afterPinInit p s).sck = false := rfl
@[simp] theorem afterPinInit_mosi (p : Pins) (s : State) : (afterPinInit p s).mosi = false := rfl
@[simp] theorem afterPinInit_csn (p : Pins) (s : State) : (afterPinInit p s).csn = true := rfl
@[simp] theorem afterPinInit_ce (p : Pins) (s : State) : (afterPinInit p s).ce = false := rfl
@[simp] theorem afterPinInit_tx (p : Pins) (s : State) : (afterPinInit p s).tx = s.tx := rfl
@[simp] theorem afterPinInit_rx (p : Pins) (s : State) : (afterPinInit p s).rx = s.rx := rfl
@[simp] theorem afterPinInit_bitcnt (p : Pins) (s : State) : (afterPinInit p s).bitcnt = s.bitcnt := rfl
@[simp] theorem afterPinInit_busy (p : Pins) (s : State) : (afterPinInit p s).busy = s.busy := rfl
@[simp] theorem afterPinInit_rxHandler (p : Pins) (s : State) : (afterPinInit p s).rxHandler = s.rxHandler := rfl
@[simp] theorem afterPinInit_pc (p : Pins) (s : State) : (afterPinInit p s).pc = s.pc + 10 := rfl
@[simp] theorem afterPinInit_windows (p : Pins) (s : State) : (afterPinInit p s).windows = s.windows := rfl
@[simp] theorem afterPinInit_trace (p : Pins) (s : State) : (afterPinInit p s).trace = s.trace ++ pinInitEvents := rfl
@[simp] theorem afterPinInit_misoIn (p : Pins) (s : State) : (afterPinInit p s).misoIn = s.misoIn := rfl
@[simp] theorem afterPinInit_drawn (p : Pins) (s : State) : (afterPinInit p s).drawn = s.drawn := rfl
@[simp] theorem afterPinInit_inbox (p : Pins) (s : State) : (afterPinInit p s).inbox = s.inbox := rfl

/-! ### `afterFrame` -/

@[simp] theorem afterFrame_pins (T : Nat) (c : Byte) (d : List Byte) (s : State) : (afterFrame T c d s).pins = s.pins := rfl
@[simp] theorem afterFrame_bound (T : Nat) (c : Byte) (d : List Byte) (s : State) : (afterFrame T c d s).bound = s.bound := rfl
@[simp] theorem afterFrame_dir (T : Nat) (c : Byte) (d : List Byte) (s : State) : (afterFrame T c d s).dir = s.dir := rfl
@[simp] theorem afterFrame_sck (T : Nat) (c : Byte) (d : List Byte) (s : State) : (afterFrame T c d s).sck = false := rfl
@[simp] theorem afterFrame_mosi (T : Nat) (c : Byte) (d : List Byte) (s : State) : (afterFrame T c d s).mosi = (lastByte c d).getLsbD 0 := rfl
@[simp] theorem afterFrame_csn (T : Nat) (c : Byte) (d : List Byte) (s : State) : (afterFrame T c d s).csn = true := rfl
@[simp] theorem afterFrame_ce (T : Nat) (c : Byte) (d : List Byte) (s : State) : (afterFrame T c d s).ce = s.ce := rfl
@[simp] theorem afterFrame_tx (T : Nat) (c : Byte) (d : List Byte) (s : State) : (afterFrame T c d s).tx = 0 := rfl
@[simp] theorem afterFrame_rx (T : Nat) (c : Byte) (d : List Byte) (s : State) : (afterFrame T c d s).rx = sampledByte s (8 * d.length) := rfl
@[simp] theorem afterFrame_bitcnt (T : Nat) (c : Byte) (d : List Byte) (s : State) : (afterFrame T c d s).bitcnt = 8 := rfl
@[simp] theorem afterFrame_busy (T : Nat) (c : Byte) (d : List Byte) (s : State) : (afterFrame T c d s).busy = s.busy := rfl
@[simp] theorem afterFrame_rxHandler (T : Nat) (c : Byte) (d : List Byte) (s : State) : (afterFrame T c d s).rxHandler = s.rxHandler := rfl
@[simp] theorem afterFrame_pc (T : Nat) (c : Byte) (d : List Byte) (s : State) : (afterFrame T c d s).pc = s.pc + (2 + 56 * (d.length + 1)) := rfl
@[simp] theorem afterFrame_windows (T : Nat) (c : Byte) (d : List Byte) (s : State) : (afterFrame T c d s).windows = s.windows := rfl
@[simp] theorem afterFrame_trace (T : Nat) (c : Byte) (d : List Byte) (s : State) : (afterFrame T c d s).trace = s.trace ++ frameEvents T c d s := rfl
@[simp] theorem afterFrame_misoIn (T : Nat) (c : Byte) (d : List Byte) (s : State) : (afterFrame T c d s).misoIn = s.misoIn.drop (8 * (d.length + 1)) := rfl
@[simp] theorem afterFrame_drawn (T : Nat) (c : Byte) (d : List Byte) (s : State) : (afterFrame T c d s).drawn = s.drawn + 8 * (d.length + 1) := rfl
@[simp] theorem afterFrame_inbox (T : Nat) (c : Byte) (d : List Byte) (s : State) : (afterFrame T c d s).inbox = s.inbox := rfl

end Sys2Proof.Laws
end

