-- ==== Sys2Proof/Laws/Transport.lean ====
section
/-! SUPPORT. What a bit cell, a transfer and a frame do, once and for all: the event-by-event operations of Machine/Ops.lean
leave the states of Safety.lean. Later proofs cite `transfer_eq`, `frame_eq`, `memRead_eq` and `rmw_eq`. -/

namespace Sys2Proof.Laws

open Sys2Proof.Machine Sys2Proof.Safety

/-- One bit cell: its seven events, the shift of both registers, one more sample taken. -/
theorem bitCell_eq (T : Nat) (s : State) :
    bitCell T s =
      { s with
        sck := false
        mosi := s.tx.getLsbD 0
        tx := s.tx >>> 1
        rx := s.rx <<< 1 ||| (if sample s 0 then 1 else 0)
        bitcnt := s.bitcnt + 1
        pc := s.pc + 7
        trace := s.trace ++ cellEvents T (s.tx.getLsbD 0) (sample s 0)
        misoIn := s.misoIn.drop 1
        drawn := s.drawn + 1 } := by
  simp [bitCell, pinWrite, wait, pinReadMiso, record, setLatch, cellEvents, sample]

/-- Taking samples shifts the coming ones. -/
theorem sample_drop (s : State) (n k : Nat) (t : State) (hm : t.misoIn = s.misoIn.drop n)
    (hd : t.drawn = s.drawn + n) : sample t k = sample s (n + k) := by
  simp [sample, hm, hd, Nat.add_assoc]

theorem shiftOut (b : Byte) :
    (rev8 b).getLsbD 0 = b.getLsbD 7 ∧ (rev8 b >>> 1).getLsbD 0 = b.getLsbD 6
    ∧ (rev8 b >>> 1 >>> 1).getLsbD 0 = b.getLsbD 5 ∧ (rev8 b >>> 1 >>> 1 >>> 1).getLsbD 0 = b.getLsbD 4
    ∧ (rev8 b >>> 1 >>> 1 >>> 1 >>> 1).getLsbD 0 = b.getLsbD 3
    ∧ (rev8 b >>> 1 >>> 1 >>> 1 >>> 1 >>> 1).getLsbD 0 = b.getLsbD 2
    ∧ (rev8 b >>> 1 >>> 1 >>> 1 >>> 1 >>> 1 >>> 1).getLsbD 0 = b.getLsbD 1
    ∧ (rev8 b >>> 1 >>> 1 >>> 1 >>> 1 >>> 1 >>> 1 >>> 1).getLsbD 0 = b.getLsbD 0
    ∧ rev8 b >>> 1 >>> 1 >>> 1 >>> 1 >>> 1 >>> 1 >>> 1 >>> 1 = 0 := by
  revert b; decide

theorem shiftIn (q0 q1 q2 q3 q4 q5 q6 q7 : Bool) :
    ((((((((0 : Byte) <<< 1 ||| (if q0 then 1 else 0)) <<< 1 ||| (if q1 then 1 else 0)) <<< 1 ||| (if q2 then 1 else 0))
      <<< 1 ||| (if q3 then 1 else 0)) <<< 1 ||| (if q4 then 1 else 0)) <<< 1 ||| (if q5 then 1 else 0)) <<< 1
      ||| (if q6 then 1 else 0)) <<< 1 ||| (if q7 then 1 else 0) = byteOfBits q0 q1 q2 q3 q4 q5 q6 q7 := by
  revert q0 q1 q2 q3 q4 q5 q6 q7; decide

/-- A transfer (40_transport R82 to R85): its 56 events, and the byte its eight samples make. -/
theorem transfer_eq (T : Nat) (out : Byte) (s : State) :
    transfer T out s = (sampledByte s 0, afterTransfer T out s) := by
  obtain ⟨h0, h1, h2, h3, h4, h5, h6, h7, h8⟩ := shiftOut out
  simp only [transfer, bitCells, bitCell_eq, h0, h1, h2, h3, h4, h5, h6, h7, h8]
  simp [sample, List.drop_drop, Nat.add_assoc, afterTransfer, sampledByte, byteEvents, List.range_succ]
  simpa using shiftIn _ _ _ _ _ _ _ _

@[simp] theorem sample_afterTransfer (T : Nat) (out : Byte) (s : State) (k : Nat) :
    sample (afterTransfer T out s) k = sample s (8 + k) := sample_drop s 8 k _ rfl rfl

@[simp] theorem sample_afterFrame (T : Nat) (cmd : Byte) (data : List Byte) (s : State) (k : Nat) :
    sample (afterFrame T cmd data s) k = sample s (8 * (data.length + 1) + k) := sample_drop s _ k _ rfl rfl

@[simp] theorem sampledByte_afterTransfer (T : Nat) (out : Byte) (s : State) (k : Nat) :
    sampledByte (afterTransfer T out s) k = sampledByte s (8 + k) := by
  simp [sampledByte, Nat.add_assoc]

@[simp] theorem sampledByte_afterFrame (T : Nat) (cmd : Byte) (data : List Byte) (s : State) (k : Nat) :
    sampledByte (afterFrame T cmd data s) k = sampledByte s (8 * (data.length + 1) + k) := by
  simp [sampledByte, Nat.add_assoc]

/-- Two states with the same coming samples show the same wire bytes. -/
theorem bytesEvents_shift (T : Nat) (s t : State) (n : Nat) (h : ∀ k, sample t k = sample s (n + k)) (k : Nat)
    (bs : List Byte) : bytesEvents T t k bs = bytesEvents T s (n + k) bs := by
  induction bs generalizing k with
  | nil => rfl
  | cons b bs ih => simp [bytesEvents, byteEvents, h, ih, Nat.add_assoc]

theorem reply_shift (s t : State) (n : Nat) (h : ∀ k, sample t k = sample s (n + k)) (k m : Nat) :
    reply t k m = reply s (n + k) m := by
  induction m generalizing k with
  | zero => rfl
  | succ m ih => simp [reply, sampledByte, h, ih, Nat.add_assoc]

/-- A list of payload transfers after the wire byte `c`: the state that one transfer after the other leaves. -/
theorem payload_eq (T : Nat) (bs : List Byte) (c : Byte) (s : State) :
    payload T bs (afterTransfer T c s) =
      (reply s 8 bs.length,
        { s with
          sck := false
          mosi := (lastByte c bs).getLsbD 0
          tx := 0
          rx := sampledByte s (8 * bs.length)
          bitcnt := 8
          pc := s.pc + 56 * (bs.length + 1)
          trace := s.trace ++ bytesEvents T s 0 (c :: bs)
          misoIn := s.misoIn.drop (8 * (bs.length + 1))
          drawn := s.drawn + 8 * (bs.length + 1) }) := by
  induction bs generalizing c s with
  | nil => simp [payload, reply, afterTransfer, lastByte, bytesEvents]
  | cons b bs ih =>
    have hb := bytesEvents_shift T s (afterTransfer T c s) 8 (sample_afterTransfer T c s)
    have hr := reply_shift s (afterTransfer T c s) 8 (sample_afterTransfer T c s)
    rw [payload, transfer_eq]
    simp only [ih, hb, hr, sampledByte_afterTransfer]
    simp [lastByte, bytesEvents, afterTransfer, List.drop_drop, Nat.mul_add, Nat.add_assoc, Nat.add_comm]
    rw [Nat.add_comm 1]
    rfl

theorem sample_congr (s t : State) (hm : t.misoIn = s.misoIn) (hd : t.drawn = s.drawn) (k : Nat) :
    sample t k = sample s k := by simp [sample, hm, hd]

/-- A frame (40_transport R88): the state it leaves and the bytes its payload samples. -/
theorem frame_eq (T : Nat) (cmd : Byte) (data : List Byte) (s : State) :
    frame T cmd data s = (reply s 8 data.length, afterFrame T cmd data s) := by
  have hk : ∀ k, sample (pinWrite .csn false s) k = sample s (0 + k) := fun k => by
    rw [Nat.zero_add]; exact sample_congr s _ rfl rfl k
  have hb := bytesEvents_shift T s (pinWrite .csn false s) 0 hk
  have hr := reply_shift s (pinWrite .csn false s) 0 hk
  have hs : ∀ k, sampledByte (pinWrite .csn false s) k = sampledByte s k := fun k => by
    simp [sampledByte, hk]
  simp only [frame, transfer_eq, payload_eq, hb, hr, hs]
  simp [pinWrite, record, setLatch, afterFrame, frameEvents, Nat.add_assoc, Nat.add_comm, Nat.add_left_comm]
  omega

/-- A read frame (40_transport R91). -/
theorem memRead_eq (T : Nat) (cmd : Byte) (n : Nat) (s : State) :
    memRead T cmd n s = (reply s 8 n, afterRead T cmd n s) := by
  simp [memRead, frame_eq, afterRead]

/-- A write frame (40_transport R89). -/
theorem memWrite_eq (T : Nat) (cmd : Byte) (data : List Byte) (s : State) :
    memWrite T cmd data s = afterFrame T cmd data s := by
  simp [memWrite, frame_eq]

/-- A one-byte read returns the byte its payload samples (41_register_access R98). -/
theorem readRegister_eq (T : Nat) (addr : Byte) (s : State) :
    readRegister T addr s = (sampledByte s 8, afterRead T (cmdR addr) 1 s) := by
  simp [readRegister, memRead_eq, reply]

theorem writeRegister_eq (T : Nat) (addr value : Byte) (s : State) :
    writeRegister T addr value s = afterFrame T (cmdW addr) [value] s := by
  simp [writeRegister, memWrite_eq]

/-- A read-modify-write is two frames, and the second writes the changed byte of the first (41_register_access R103). -/
theorem rmw_eq (T : Nat) (addr : Byte) (f : Byte → Byte) (s : State) : rmw T addr f s = afterRmw T addr f s := by
  simp [rmw, readRegister_eq, writeRegister_eq, afterRmw]

theorem readBit_eq (T : Nat) (addr : Byte) (i : BitPos) (s : State) :
    readBit T addr i s = (testBitIn (sampledByte s 8) i, afterRead T (cmdR addr) 1 s) := by
  simp [readBit, readRegister_eq]

theorem pinWrite_ce (l : Level) (s : State) : pinWrite .ce l s = afterCe l s := rfl

theorem pinInit_eq (p : Pins) (s : State) :
    { pinInit { s with pins := some p } with bound := true } = afterPinInit p s := by
  simp [pinInit, pinDir, pinWrite, record, setDir, setLatch, afterPinInit, boundDirs, pinInitEvents]

end Sys2Proof.Laws
end

