-- ==== Sys2Proof/Laws/Radio.lean ====
section
/-! SUPPORT. What each radio-control, receive and boot operation does, in the terms of Safety.lean. -/

namespace Sys2Proof.Laws

open Sys2Proof.Machine Sys2Proof.Safety

theorem setBit_eq (T : Nat) (addr : Byte) (i : BitPos) (s : State) :
    setBit T addr i s = afterRmw T addr (fun v => v ||| mask i) s := by
  simp [setBit, rmw_eq, setBitIn]

theorem clearBit_eq (T : Nat) (addr : Byte) (i : BitPos) (s : State) :
    clearBit T addr i s = afterRmw T addr (fun v => v &&& ~~~(mask i)) s := by
  simp [clearBit, rmw_eq, clearBitIn]

theorem putBit_eq (T : Nat) (addr : Byte) (i : BitPos) (level : Bool) (s : State) :
    putBit T addr i level s = afterRmw T addr (fun v => putBitIn v i level) s := by
  cases level <;> simp [putBit, setBit, clearBit, rmw_eq, putBitIn]

theorem setDataRate_eq (P : Params) (rate : DataRate) (s : State) :
    setDataRate P rate s = afterSetDataRate P rate s := by
  cases h : P.sdrForm <;> simp [setDataRate, afterSetDataRate, h, putBit_eq, rmw_eq]

theorem getDataRate_eq (P : Params) (s : State) :
    getDataRate P s = (rateRead P s, afterGetDataRate P s) := by
  cases h : P.gdrForm <;>
    simp [getDataRate, rateRead, afterGetDataRate, h, readRegister_eq, readBit_eq, afterRead]

theorem setModeRX_eq (P : Params) (s : State) :
    setModeRX P s = afterCe true
      (afterRmw P.tSettle (regByte P.regConfig) (fun v => v ||| mask P.bitPrimRx) (afterCe false s)) := by
  simp [setModeRX, pinWrite_ce, setBit_eq]

theorem clearReady_eq (P : Params) (s : State) : clearReady P s = afterClear P s := by
  cases h : P.pollClearForm <;> simp [clearReady, afterClear, h, writeRegister_eq, setBit_eq]

theorem performStep_eq (P : Params) (st : RecipeStep) (s : State) : performStep P st s = afterStep P s st := by
  cases st <;>
    simp [performStep, afterStep, memWrite_eq, writeRegister_eq, setBit_eq, clearBit_eq, powerUp, shutDown, setModeRX_eq,
      setCh, setDataRate_eq, getDataRate_eq, enableDynAck, disableDynAck, setRxPayloadWidth]
  case setCRCSize n => fin_cases n <;> simp [setCRCSize, setBit_eq, clearBit_eq]

theorem performSteps_eq (P : Params) (l : List RecipeStep) (s : State) :
    performSteps P l s = l.foldl (afterStep P) s := by
  induction l generalizing s with
  | nil => rfl
  | cons st l ih => simp [performSteps, performStep_eq, ih]

theorem bootWith_eq (P : Params) (p : Pins) (s : State) : bootWith P p s = afterBegin P p s := by
  simp [bootWith, pinInit_eq, performSteps_eq, pinWrite_ce, afterBegin]

/-- What is known of the machine's parameters (00_scope R7; 42_radio_control R113; 70_reset_and_hazards R153). -/
theorem params_wf : Config.params.wf = true := Config.binding.wf

theorem params_pins_distinct : Config.params.pins.distinct = true := by
  have h := params_wf
  simp only [Params.wf, Bool.and_eq_true] at h
  exact h.1.1.1.1.1.1

theorem params_recipeOk : Config.params.recipeOk = true := by
  have h := params_wf
  simp only [Params.wf, Bool.and_eq_true] at h
  exact h.2

end Sys2Proof.Laws
end

