-- ==== Sys2Proof/Laws/Wire.lean ====
section
/-! SUPPORT. What the events of a frame are to a bus monitor, to a latch, to a reader of frames and to a clock. -/

namespace Sys2Proof.Laws

open Sys2Proof.Machine Sys2Proof.Safety

/-- The events a frame is made of. -/
def wireEvent : Event → Bool
  | .set .ce _ => false
  | .set _ _ => true
  | .wait _ => true
  | .get .miso _ => true
  | .get .irq _ => false
  | .dir _ _ => false
  | .notify _ => false
  | .result _ => false

theorem byteEvents_wire (T : Nat) (s : State) (k : Nat) (b : Byte) : (byteEvents T s k b).all wireEvent = true := by
  simp [byteEvents, List.range_succ, cellEvents, wireEvent]

theorem bytesEvents_wire (T : Nat) (s : State) (k : Nat) (bs : List Byte) :
    (bytesEvents T s k bs).all wireEvent = true := by
  induction bs generalizing k with
  | nil => rfl
  | cons b bs ih => simp only [bytesEvents, List.all_append, byteEvents_wire, ih, Bool.and_self]

theorem frameEvents_wire (T : Nat) (c : Byte) (d : List Byte) (s : State) :
    (frameEvents T c d s).all wireEvent = true := by
  simp only [frameEvents, List.all_cons, List.all_append, bytesEvents_wire]
  rfl

theorem byteEvents_length (T : Nat) (s : State) (k : Nat) (b : Byte) : (byteEvents T s k b).length = 56 := by
  simp [byteEvents, List.range_succ, cellEvents]

theorem bytesEvents_length (T : Nat) (s : State) (k : Nat) (bs : List Byte) :
    (bytesEvents T s k bs).length = 56 * bs.length := by
  induction bs generalizing k with
  | nil => rfl
  | cons b bs ih => simp [bytesEvents, byteEvents_length, ih]; omega

/-- A frame of `n` payload bytes has 2 + 56(n+1) events (40_transport R93). -/
theorem frameEvents_length (T : Nat) (c : Byte) (d : List Byte) (s : State) :
    (frameEvents T c d s).length = 2 + 56 * (d.length + 1) := by
  simp [frameEvents, bytesEvents_length]; omega

theorem samplesIn_append (a b : List Event) : samplesIn (a ++ b) = samplesIn a + samplesIn b := List.countP_append

theorem samplesIn_bytes (T : Nat) (s : State) (k : Nat) (bs : List Byte) :
    samplesIn (bytesEvents T s k bs) = 8 * bs.length := by
  induction bs generalizing k with
  | nil => rfl
  | cons b bs ih =>
    have : samplesIn (byteEvents T s k b) = 8 := by simp [samplesIn, byteEvents, List.range_succ, cellEvents]
    rw [bytesEvents, samplesIn_append, this, ih, List.length_cons]
    omega

/-- A frame takes eight samples a byte. -/
theorem samplesIn_frame (T : Nat) (c : Byte) (d : List Byte) (s : State) :
    samplesIn (frameEvents T c d s) = 8 * (d.length + 1) := by
  have h := samplesIn_bytes T s 0 (c :: d)
  rw [List.length_cons] at h
  rw [← h, frameEvents, ← List.singleton_append, samplesIn_append, samplesIn_append]
  simp [samplesIn]

/-! ### The monitor -/

theorem busRun_append (T : Nat) (a b : List Event) (p : BusPhase) :
    busRun T (a ++ b) p = (busRun T a p).bind (busRun T b) := by
  induction a generalizing p with
  | nil => rfl
  | cons e a ih => simp only [List.cons_append, busRun, Option.bind_assoc]; congr; funext q; exact ih q

/-- An event inside a cell goes on to the next place. -/
theorem busStep_cell (T n : Nat) (e : Event) (h : cellWants T (n % 7) e = true) (hc : e ≠ .set .csn true) :
    busStep T (.inFrame n) e = some (.inFrame (n + 1)) := by
  simp [busStep, h, hc]

theorem busRun_cell (T n : Nat) (d q : Level) (h : n % 7 = 0) :
    busRun T (cellEvents T d q) (.inFrame n) = some (.inFrame (n + 7)) := by
  have m1 : (n + 1) % 7 = 1 := by omega
  have m2 : (n + 1 + 1) % 7 = 2 := by omega
  have m3 : (n + 1 + 1 + 1) % 7 = 3 := by omega
  have m4 : (n + 1 + 1 + 1 + 1) % 7 = 4 := by omega
  have m5 : (n + 1 + 1 + 1 + 1 + 1) % 7 = 5 := by omega
  have m6 : (n + 1 + 1 + 1 + 1 + 1 + 1) % 7 = 6 := by omega
  simp [cellEvents, busRun, busStep, h, m1, m2, m3, m4, m5, m6, cellWants]

theorem busRun_cells (T : Nat) (ds : List (Level × Level)) (n : Nat) (h : n % 7 = 0) :
    busRun T (ds.flatMap fun x => cellEvents T x.1 x.2) (.inFrame n) = some (.inFrame (n + 7 * ds.length)) := by
  induction ds generalizing n with
  | nil => rfl
  | cons x ds ih =>
    rw [List.flatMap_cons, busRun_append, busRun_cell T n _ _ h, Option.bind_some, ih (n + 7) (by omega)]
    congr 2
    simp only [List.length_cons]
    omega

theorem byteEvents_cells (T : Nat) (s : State) (k : Nat) (b : Byte) :
    byteEvents T s k b
      = (((List.range 8).map fun j => (b.getLsbD (7 - j), sample s (k + j))).flatMap fun x => cellEvents T x.1 x.2) := by
  rw [byteEvents, List.flatMap_map]

theorem busRun_byte (T : Nat) (s : State) (k n : Nat) (b : Byte) (h : n % 7 = 0) :
    busRun T (byteEvents T s k b) (.inFrame n) = some (.inFrame (n + 56)) := by
  rw [byteEvents_cells, busRun_cells T _ n h, List.length_map, List.length_range]

theorem busRun_bytes (T : Nat) (s : State) (bs : List Byte) (k n : Nat) (h : n % 7 = 0) :
    busRun T (bytesEvents T s k bs) (.inFrame n) = some (.inFrame (n + 56 * bs.length)) := by
  induction bs generalizing k n with
  | nil => rfl
  | cons b bs ih =>
    rw [bytesEvents, busRun_append, busRun_byte T s k n b h, Option.bind_some, ih (k + 8) (n + 56) (by omega),
      List.length_cons, Nat.mul_succ, Nat.add_assoc, Nat.add_comm 56]

/-- A frame runs a monitor from between frames to between frames. -/
theorem busRun_frame (T : Nat) (c : Byte) (d : List Byte) (s : State) :
    busRun T (frameEvents T c d s) .idle = some .idle := by
  have h : ∀ n : Nat, n ≠ 0 → n % 56 = 0 → busRun T [.set .csn true] (.inFrame n) = some .idle := by
    intro n h0 h1
    simp [busRun, busStep, h0, h1]
  rw [frameEvents, busRun, busStep, Option.bind_some, busRun_append, busRun_bytes T s _ 0 0 rfl, Option.bind_some]
  refine h _ ?_ (by omega)
  rw [List.length_cons]
  omega

/-! ### Latches -/

theorem lastLevel_append (p : OutPin) (a b : List Event) :
    lastLevel p (a ++ b) = (lastLevel p b).or (lastLevel p a) := by
  induction a with
  | nil => simp [lastLevel]
  | cons e a ih =>
    simp only [List.cons_append, lastLevel, ih]
    cases lastLevel p b <;> simp

theorem lastLevel_cell (T : Nat) (d q : Level) (p : OutPin) :
    lastLevel p (cellEvents T d q)
      = match p with
        | .sck => some false
        | .mosi => some d
        | .csn => none
        | .ce => none := by
  cases p <;> cases d <;> simp [cellEvents, lastLevel]

theorem lastLevel_cells_none (T : Nat) (ds : List (Level × Level)) (p : OutPin) (hp : p = .csn ∨ p = .ce) :
    lastLevel p (ds.flatMap fun x => cellEvents T x.1 x.2) = none := by
  induction ds with
  | nil => rfl
  | cons x ds ih =>
    rw [List.flatMap_cons, lastLevel_append, ih, lastLevel_cell]
    rcases hp with rfl | rfl <;> rfl

theorem lastLevel_byte (T : Nat) (s : State) (k : Nat) (b : Byte) (p : OutPin) :
    lastLevel p (byteEvents T s k b)
      = match p with
        | .sck => some false
        | .mosi => some (b.getLsbD 0)
        | .csn => none
        | .ce => none := by
  rw [byteEvents_cells]
  match p with
  | .csn => exact lastLevel_cells_none _ _ _ (.inl rfl)
  | .ce => exact lastLevel_cells_none _ _ _ (.inr rfl)
  | .sck | .mosi =>
    rw [List.range_succ, List.map_append, List.flatMap_append, lastLevel_append, List.map_singleton, List.flatMap_singleton,
      lastLevel_cell]
    rfl

theorem lastLevel_bytes (T : Nat) (s : State) (bs : List Byte) (k : Nat) (c : Byte) (p : OutPin) :
    lastLevel p (bytesEvents T s k (c :: bs))
      = match p with
        | .sck => some false
        | .mosi => some ((lastByte c bs).getLsbD 0)
        | .csn => none
        | .ce => none := by
  induction bs generalizing k c with
  | nil => simp [bytesEvents, lastLevel_byte, lastByte]
  | cons b bs ih =>
    rw [bytesEvents, lastLevel_append, ih, lastLevel_byte]
    cases p <;> simp [lastByte]

/-- The last levels a frame sets (10_state R36; 40_transport R87). -/
theorem lastLevel_frame (T : Nat) (c : Byte) (d : List Byte) (s : State) (p : OutPin) :
    lastLevel p (frameEvents T c d s)
      = match p with
        | .sck => some false
        | .mosi => some ((lastByte c d).getLsbD 0)
        | .csn => some true
        | .ce => none := by
  rw [frameEvents, lastLevel, lastLevel_append, lastLevel_bytes]
  cases p <;> simp [lastLevel]

/-! ### Frames read back -/

theorem wireBytes_append (b : Byte) (ls : List Level) :
    wireBytes (((List.range 8).map fun j => b.getLsbD (7 - j)) ++ ls) = b :: wireBytes ls := by
  have : byteOfBits (b.getLsbD 7) (b.getLsbD 6) (b.getLsbD 5) (b.getLsbD 4) (b.getLsbD 3) (b.getLsbD 2) (b.getLsbD 1)
      (b.getLsbD 0) = b := by revert b; decide
  simp only [List.range_succ]
  simpa [wireBytes] using this

theorem wireBytes_levelsOf (bs : List Byte) : wireBytes (levelsOf bs) = bs := by
  induction bs with
  | nil => rfl
  | cons b bs ih => rw [levelsOf, List.flatMap_cons, wireBytes_append]; rw [levelsOf] at ih; rw [ih]

/-- A byte list as levels: level `i` of byte `j`. -/
theorem levelsOf_get (bs : List Byte) (j i : Nat) (hi : i < 8) :
    (levelsOf bs)[8 * j + i]? = bs[j]?.map fun b => b.getLsbD (7 - i) := by
  have hl : ∀ b : Byte, ((List.range 8).map fun j => b.getLsbD (7 - j)).length = 8 := fun b => by simp
  induction bs generalizing j with
  | nil => simp [levelsOf]
  | cons b bs ih =>
    rw [levelsOf, List.flatMap_cons]
    cases j with
    | zero => rw [List.getElem?_append_left (by rw [hl]; omega)]; simp [hi]
    | succ j =>
      rw [List.getElem?_append_right (by rw [hl]; omega), hl, show 8 * (j + 1) + i - 8 = 8 * j + i by omega]
      exact ih j

theorem levelsOf_length (bs : List Byte) : (levelsOf bs).length = 8 * bs.length := by
  induction bs with
  | nil => rfl
  | cons b bs ih => rw [levelsOf, List.flatMap_cons, List.length_append, ← levelsOf, ih]; simp; omega

/-- A slave that drives the levels of a byte list is read as those bytes. -/
theorem sampledByte_of_levels (bs : List Byte) (s : State)
    (h : ∀ k, k < (levelsOf bs).length → some (sample s k) = (levelsOf bs)[k]?) (j : Nat) (b : Byte) (hb : bs[j]? = some b) :
    sampledByte s (8 * j) = b := by
  have hj : j < bs.length := by
    by_contra hc
    rw [List.getElem?_eq_none (by omega)] at hb
    cases hb
  have e : ∀ i < 8, sample s (8 * j + i) = b.getLsbD (7 - i) := by
    intro i hi
    have h1 := h (8 * j + i) (by rw [levelsOf_length]; omega)
    rw [levelsOf_get _ _ _ hi, hb] at h1
    simpa using h1
  have e0 := e 0 (by omega)
  rw [Nat.add_zero] at e0
  rw [sampledByte, e0, e 1 (by omega), e 2 (by omega), e 3 (by omega), e 4 (by omega), e 5 (by omega), e 6 (by omega),
    e 7 (by omega)]
  clear e0 e hb hj h
  revert b
  decide

theorem framesFrom_byte (T : Nat) (s : State) (k : Nat) (b : Byte) (ls : List Level) (es : List Event) :
    framesFrom (byteEvents T s k b ++ es) (some ls)
      = framesFrom es (some (ls ++ (List.range 8).map fun j => b.getLsbD (7 - j))) := by
  simp [byteEvents, List.range_succ, cellEvents, framesFrom]

theorem framesFrom_bytes (T : Nat) (s : State) (bs : List Byte) (k : Nat) (ls : List Level) (es : List Event) :
    framesFrom (bytesEvents T s k bs ++ es) (some ls) = framesFrom es (some (ls ++ levelsOf bs)) := by
  induction bs generalizing k ls with
  | nil => simp [bytesEvents, levelsOf]
  | cons b bs ih =>
    rw [bytesEvents, List.append_assoc, framesFrom_byte, ih]
    simp [levelsOf]

/-- A monitor reads a frame as the bytes that were sent. -/
theorem framesFrom_frame (T : Nat) (c : Byte) (d : List Byte) (s : State) (es : List Event) :
    framesFrom (frameEvents T c d s ++ es) none = (c :: d) :: framesFrom es none := by
  simp only [frameEvents, List.cons_append, List.append_assoc, framesFrom, framesFrom_bytes, List.nil_append,
    wireBytes_levelsOf]

/-! ### Time -/

theorem minTime_append (a b : List Event) : minTime (a ++ b) = minTime a + minTime b := by
  simp [minTime]

theorem minTime_cells (T : Nat) (ds : List (Level × Level)) :
    minTime (ds.flatMap fun x => cellEvents T x.1 x.2) = 3 * ds.length * T := by
  induction ds with
  | nil => simp [minTime]
  | cons x ds ih =>
    have : minTime (cellEvents T x.1 x.2) = 3 * T := by simp [minTime, cellEvents, eventTime]; omega
    rw [List.flatMap_cons, minTime_append, ih, this, List.length_cons]
    ring

theorem minTime_bytes (T : Nat) (s : State) (k : Nat) (bs : List Byte) :
    minTime (bytesEvents T s k bs) = 24 * bs.length * T := by
  induction bs generalizing k with
  | nil => simp [bytesEvents, minTime]
  | cons b bs ih =>
    rw [bytesEvents, minTime_append, ih]
    rw [byteEvents_cells, minTime_cells, List.length_map, List.length_range, List.length_cons]
    ring

/-- A frame takes at least 24 settle delays a byte (70_reset_and_hazards R169). -/
theorem minTime_frame (T : Nat) (c : Byte) (d : List Byte) (s : State) :
    minTime (frameEvents T c d s) = 24 * (d.length + 1) * T := by
  have h := minTime_bytes T s 0 (c :: d)
  rw [List.length_cons] at h
  rw [← h, frameEvents, ← List.singleton_append, minTime_append, minTime_append]
  simp [minTime, eventTime]

theorem waitsWhileHigh_low (es : List Event) (rest : List Event) (h : ∀ l, Event.set .csn l ∉ es) :
    waitsWhileHigh false (es ++ rest) = waitsWhileHigh false rest := by
  induction es with
  | nil => rfl
  | cons e es ih =>
    have h1 : ∀ l, e ≠ .set .csn l := fun l he => h l (by simp [he])
    have h2 : ∀ l, Event.set .csn l ∉ es := fun l hm => h l (List.mem_cons_of_mem _ hm)
    rw [List.cons_append]
    match e with
    | .set .csn l => exact absurd rfl (h1 l)
    | .set .sck _ | .set .mosi _ | .set .ce _ | .wait _ | .dir _ _ | .get _ _ | .notify _ | .result _ =>
      simpa [waitsWhileHigh] using ih h2

theorem bytesEvents_csn (T : Nat) (s : State) (k : Nat) (bs : List Byte) (l : Level) :
    Event.set .csn l ∉ bytesEvents T s k bs := by
  induction bs generalizing k with
  | nil => simp [bytesEvents]
  | cons b bs ih => simp [bytesEvents, ih, byteEvents, List.range_succ, cellEvents]

/-- A frame waits only while chip-select is low. -/
theorem waitsWhileHigh_frame (T : Nat) (c : Byte) (d : List Byte) (s : State) (rest : List Event) :
    waitsWhileHigh true (frameEvents T c d s ++ rest) = waitsWhileHigh true rest := by
  simp only [frameEvents, List.cons_append, List.append_assoc, waitsWhileHigh]
  rw [waitsWhileHigh_low _ _ (fun l => bytesEvents_csn T s 0 (c :: d) l)]
  simp [waitsWhileHigh]

end Sys2Proof.Laws
end

