-- ==== Sys2Proof/Laws/Runs.lean ====
section
/-! SUPPORT. Said once: what the body of an operation can do to the block. It adds events of given kinds, moves the event
index with them, leaves the binding, the slots and the queues alone, keeps the latches at the levels last set, and runs
the bus from between frames to between frames. Every operation is such a run, and runs compose. -/

namespace Sys2Proof.Laws

open Sys2Proof.Machine Sys2Proof.Safety

/-- From `s` to `t` the block recorded the events `es`, all of them of a kind `ok` admits. -/
structure Ran (T : Nat) (ok : Event → Bool) (s t : State) (es : List Event) : Prop where
  trace : t.trace = s.trace ++ es
  pc : t.pc = s.pc + es.length
  kinds : es.all ok = true
  pins : t.pins = s.pins
  bound : t.bound = s.bound
  dir : t.dir = s.dir
  windows : t.windows = s.windows
  rxHandler : t.rxHandler = s.rxHandler
  inbox : t.inbox = s.inbox
  busy : t.busy = s.busy
  drawn : t.drawn = s.drawn + samplesIn es
  misoIn : t.misoIn = s.misoIn.drop (samplesIn es)
  latches : ∀ p, latch t p = (lastLevel p es).getD (latch s p)
  bitcnt : s.bitcnt ≤ 8 → t.bitcnt ≤ 8
  csn : s.csn = true → t.csn = true
  sck : s.sck = false → t.sck = false
  bus : busRun T es .idle = some .idle
  frames : ∀ rest, framesFrom (es ++ rest) none = framesFrom es none ++ framesFrom rest none
  high : ∀ rest, waitsWhileHigh true (es ++ rest) = waitsWhileHigh true rest
  mosi : t.mosi = (((framesOf es).flatten.getLast?).map fun w => w.getLsbD 0).getD s.mosi

/-- The kinds that matter for a bus and the host: the wire, and what stands between frames. -/
def anyKind : Event → Bool
  | .dir _ _ => false
  | .get .irq _ => false
  | _ => true

theorem Ran.refl (T : Nat) (ok : Event → Bool) (s : State) : Ran T ok s s [] := by
  constructor <;> simp [lastLevel, busRun, framesFrom, framesOf, samplesIn]

theorem Ran.trans {T : Nat} {ok : Event → Bool} {s t u : State} {es fs : List Event} (h : Ran T ok s t es)
    (k : Ran T ok t u fs) : Ran T ok s u (es ++ fs) where
  trace := by rw [k.trace, h.trace, List.append_assoc]
  pc := by rw [k.pc, h.pc, List.length_append, Nat.add_assoc]
  kinds := by rw [List.all_append, h.kinds, k.kinds]; rfl
  pins := k.pins.trans h.pins
  bound := k.bound.trans h.bound
  dir := k.dir.trans h.dir
  windows := k.windows.trans h.windows
  rxHandler := k.rxHandler.trans h.rxHandler
  inbox := k.inbox.trans h.inbox
  busy := k.busy.trans h.busy
  drawn := by rw [k.drawn, h.drawn, samplesIn_append, Nat.add_assoc]
  misoIn := by rw [k.misoIn, h.misoIn, samplesIn_append, List.drop_drop]
  latches p := by rw [k.latches, h.latches, lastLevel_append]; cases lastLevel p fs <;> simp
  bitcnt hb := k.bitcnt (h.bitcnt hb)
  csn hc := k.csn (h.csn hc)
  sck hc := k.sck (h.sck hc)
  bus := by rw [busRun_append, h.bus, Option.bind_some, k.bus]
  frames rest := by rw [List.append_assoc, h.frames, k.frames, h.frames, List.append_assoc]
  high rest := by rw [List.append_assoc, h.high, k.high]
  mosi := by
    have hf : framesOf (es ++ fs) = framesOf es ++ framesOf fs := h.frames fs
    rw [k.mosi, h.mosi, hf, List.flatten_append, List.getLast?_append]
    cases (framesOf fs).flatten.getLast? <;> rfl

theorem Ran.mono {T : Nat} {ok ok' : Event → Bool} {s t : State} {es : List Event} (h : Ran T ok s t es)
    (hk : ∀ e, ok e = true → ok' e = true) : Ran T ok' s t es :=
  { h with kinds := List.all_eq_true.mpr fun e he => hk e (List.all_eq_true.mp h.kinds e he) }

/-- The frames of a frame. -/
theorem framesOf_frame (T : Nat) (c : Byte) (d : List Byte) (s : State) :
    framesOf (frameEvents T c d s) = [c :: d] := by
  have h := framesFrom_frame T c d s []
  rw [List.append_nil] at h
  exact h

/-- A frame is a run of wire events. -/
theorem ran_frame (T : Nat) (c : Byte) (d : List Byte) (s : State) :
    Ran T wireEvent s (afterFrame T c d s) (frameEvents T c d s) where
  trace := rfl
  pc := by rw [afterFrame_pc, frameEvents_length]
  kinds := frameEvents_wire T c d s
  pins := rfl
  bound := rfl
  dir := rfl
  windows := rfl
  rxHandler := rfl
  inbox := rfl
  busy := rfl
  drawn := by rw [samplesIn_frame]; rfl
  misoIn := by rw [samplesIn_frame]; rfl
  latches p := by rw [lastLevel_frame]; cases p <;> rfl
  bitcnt _ := Nat.le_refl 8
  csn _ := rfl
  sck _ := rfl
  bus := busRun_frame T c d s
  frames rest := by
    have h := framesFrom_frame T c d s []
    rw [List.append_nil] at h
    rw [framesFrom_frame, h]
    rfl
  high rest := waitsWhileHigh_frame T c d s rest
  mosi := by
    rw [framesOf_frame]
    simp [lastByte, List.getLast?_eq_some_getLast]

theorem Ran.framesOf_append {T : Nat} {ok : Event → Bool} {s t : State} {es : List Event} (h : Ran T ok s t es)
    (fs : List Event) : framesOf (es ++ fs) = framesOf es ++ framesOf fs := h.frames fs

theorem Ran.newEvents {T : Nat} {ok : Event → Bool} {s t : State} {es : List Event} (h : Ran T ok s t es) :
    newEvents s t = es := by
  rw [Safety.newEvents, h.trace, List.drop_left]

/-- A read-modify-write is a run of two frames, with the byte of the first changed in the second. -/
theorem ran_rmw (T : Nat) (addr : Byte) (f : Byte → Byte) (s : State) :
    ∃ es, Ran T wireEvent s (afterRmw T addr f s) es
      ∧ framesOf es = [[cmdR addr, 0], [cmdW addr, f (sampledByte s 8)]]
      ∧ minTime es = 96 * T ∧ es.length = 228 := by
  have h := (ran_frame T (cmdR addr) [0] s).trans
    (ran_frame T (cmdW addr) [f (sampledByte s 8)] (afterFrame T (cmdR addr) [0] s))
  refine ⟨_, h, ?_, ?_, ?_⟩
  · rw [(ran_frame T (cmdR addr) [0] s).framesOf_append, framesOf_frame, framesOf_frame]; rfl
  · rw [minTime_append, minTime_frame, minTime_frame]; simp; omega
  · rw [List.length_append, frameEvents_length, frameEvents_length]; simp

/-- The events between frames. -/
def betweenFrames : Event → Bool
  | .set .ce _ => true
  | .notify _ => true
  | .result _ => true
  | _ => false

theorem ran_ce (T : Nat) (l : Level) (s : State) :
    Ran T (fun e => e == .set .ce l) s (afterCe l s) [.set .ce l] := by
  constructor <;> simp [busRun, busStep, framesFrom, framesOf, waitsWhileHigh, lastLevel, samplesIn]
  intro p
  cases p <;> cases l <;> simp [latch]

theorem ran_result (T : Nat) (r : Result) (s : State) :
    Ran T (fun e => e == .result r) s (returned r s) [.result r] := by
  constructor <;> simp [busRun, busStep, framesFrom, framesOf, waitsWhileHigh, lastLevel, samplesIn]
  intro p
  cases p <;> rfl

/-- The start of an operation changes nothing a run speaks of but the index and the busy bit. -/
theorem latch_enter (s : State) (p : OutPin) : latch (enter s) p = latch s p := by cases p <;> rfl

theorem latch_ended (s : State) (p : OutPin) : latch (ended s) p = latch s p := by cases p <;> rfl

theorem ran_setDataRate (P : Params) (rate : DataRate) (s : State) :
    ∃ es, Ran P.tSettle wireEvent s (afterSetDataRate P rate s) es := by
  unfold afterSetDataRate
  cases P.sdrForm
  · obtain ⟨e1, h1, _⟩ := ran_rmw P.tSettle (regByte P.regDr) (fun v => putBitIn v P.bitDrHi (rateCode rate).1) s
    obtain ⟨e2, h2, _⟩ := ran_rmw P.tSettle (regByte P.regDr) (fun v => putBitIn v P.bitDrLo (rateCode rate).2)
      (afterRmw P.tSettle (regByte P.regDr) (fun v => putBitIn v P.bitDrHi (rateCode rate).1) s)
    exact ⟨_, h1.trans h2⟩
  · obtain ⟨e1, h1, _⟩ := ran_rmw P.tSettle (regByte P.regDr) (fun v => putBitIn v P.bitDrLo (rateCode rate).2) s
    obtain ⟨e2, h2, _⟩ := ran_rmw P.tSettle (regByte P.regDr) (fun v => putBitIn v P.bitDrHi (rateCode rate).1)
      (afterRmw P.tSettle (regByte P.regDr) (fun v => putBitIn v P.bitDrLo (rateCode rate).2) s)
    exact ⟨_, h1.trans h2⟩
  · obtain ⟨e1, h1, _⟩ := ran_rmw P.tSettle (regByte P.regDr)
      (fun v => putRateIn v P.bitDrHi P.bitDrLo (rateCode rate).1 (rateCode rate).2) s
    exact ⟨_, h1⟩

theorem ran_getDataRate (P : Params) (s : State) :
    ∃ es, Ran P.tSettle wireEvent s (afterGetDataRate P s) es := by
  unfold afterGetDataRate
  cases P.gdrForm
  · exact ⟨_, ran_frame _ _ _ _⟩
  · exact ⟨_, (ran_frame _ _ _ _).trans (ran_frame _ _ _ _)⟩
  · exact ⟨_, (ran_frame _ _ _ _).trans (ran_frame _ _ _ _)⟩

theorem ran_clear (P : Params) (s : State) : ∃ es, Ran P.tSettle wireEvent s (afterClear P s) es := by
  unfold afterClear
  cases P.pollClearForm
  · exact ⟨_, ran_frame _ _ _ _⟩
  · obtain ⟨es, h, _⟩ := ran_rmw P.tSettle (regByte P.regStatus) (fun v => v ||| mask P.bitRxReady) s
    exact ⟨es, h⟩

/-- The events of a recipe step or of setModeRX: the wire, and chip-enable. -/
def wireOrCe : Event → Bool
  | .set .ce _ => true
  | e => wireEvent e

theorem wireOrCe_of_wire (e : Event) (h : wireEvent e = true) : wireOrCe e = true := by
  match e with
  | .set .ce _ => rfl
  | .set .sck _ | .set .mosi _ | .set .csn _ | .wait _ | .get .miso _ => exact h
  | .get .irq _ | .dir _ _ | .notify _ | .result _ => exact h

theorem wireOrCe_of_ce (l : Level) (e : Event) (h : (e == .set .ce l) = true) : wireOrCe e = true := by
  rw [eq_of_beq h]; rfl

theorem ran_setModeRX (P : Params) (s : State) :
    ∃ es, Ran P.tSettle wireOrCe s
      (afterCe true (afterRmw P.tSettle (regByte P.regConfig) (fun v => v ||| mask P.bitPrimRx) (afterCe false s))) es := by
  obtain ⟨es, h, _⟩ := ran_rmw P.tSettle (regByte P.regConfig) (fun v => v ||| mask P.bitPrimRx) (afterCe false s)
  exact ⟨_, (((ran_ce _ _ _).mono (wireOrCe_of_ce _)).trans (h.mono wireOrCe_of_wire)).trans
    ((ran_ce _ _ _).mono (wireOrCe_of_ce _))⟩

/-- What a recipe step is known to have recorded: chip-enable only where it is SET_MODE_RX (70_reset_and_hazards R155), and the one
frame of a step that is a write frame (70_reset_and_hazards R153). -/
structure StepRan (P : Params) (st : RecipeStep) (s : State) (es : List Event) : Prop where
  ran : Ran P.tSettle wireOrCe s (afterStep P s st) es
  noCe : st ≠ .setModeRX → es.all wireEvent = true
  frame : ∀ d, st.writePayload = some d → ∃ c, framesOf es = [c :: d]

theorem ran_step (P : Params) (st : RecipeStep) (s : State) : ∃ es, StepRan P st s es := by
  have wire : ∀ {t : State}, t = afterStep P s st → st.writePayload = none →
      (∃ es, Ran P.tSettle wireEvent s t es) → ∃ es, StepRan P st s es := by
    rintro t rfl hw ⟨es, h⟩
    exact ⟨es, h.mono wireOrCe_of_wire, fun _ => h.kinds, fun d hd => by rw [hw] at hd; cases hd⟩
  have rmw : ∀ addr f, ∃ es, Ran P.tSettle wireEvent s (afterRmw P.tSettle addr f s) es :=
    fun addr f => let ⟨es, h, _⟩ := ran_rmw P.tSettle addr f s; ⟨es, h⟩
  have one : ∀ c d, afterFrame P.tSettle c d s = afterStep P s st → (∀ d', st.writePayload = some d' → d = d') →
      ∃ es, StepRan P st s es := fun c d he hd =>
    have h := ran_frame P.tSettle c d s
    ⟨frameEvents P.tSettle c d s, he ▸ h.mono wireOrCe_of_wire, fun _ => h.kinds, fun d' hd' =>
      ⟨c, hd d' hd' ▸ framesOf_frame P.tSettle c d s⟩⟩
  match st with
  | .setModeRX =>
    obtain ⟨es, h⟩ := ran_setModeRX P s
    exact ⟨es, h, fun hn => absurd rfl hn, fun _ hd => by cases hd⟩
  | .writeRegisterN addr buf => exact one (cmdW addr) buf rfl fun _ hd => by cases hd; rfl
  | .writeRegister addr value => exact one (cmdW addr) [value] rfl fun _ hd => by cases hd; rfl
  | .writeCommand cmd data => exact one cmd data rfl fun _ hd => by cases hd; rfl
  | .setCh channel => exact one (cmdW (regByte P.regCh)) [channel] rfl fun _ hd => by cases hd; rfl
  | .setRxPayloadWidth pipe width =>
    exact one (cmdW (regByte P.rxPw[pipeIndex pipe])) [width] rfl fun _ hd => by cases hd; rfl
  | .setBit _ _ | .clearBit _ _ | .powerUp | .shutDown | .enableDynAck | .disableDynAck =>
    refine wire rfl rfl ?_
    simp only [afterStep]
    exact rmw _ _
  | .setDataRate rate => exact wire rfl rfl (ran_setDataRate P rate s)
  | .getDataRate => exact wire rfl rfl (ran_getDataRate P s)
  | .setCRCSize n =>
    refine wire rfl rfl ?_
    simp only [afterStep]
    split
    · exact rmw _ _
    · split
      · exact rmw _ _
      · exact ⟨[], Ran.refl _ _ _⟩

theorem ran_steps (P : Params) (l : List RecipeStep) (s : State) :
    ∃ es, Ran P.tSettle wireOrCe s (l.foldl (afterStep P) s) es
      ∧ ((∀ st ∈ l, st ≠ .setModeRX) → es.all wireEvent = true) := by
  induction l generalizing s with
  | nil => exact ⟨[], Ran.refl _ _ _, fun _ => rfl⟩
  | cons st l ih =>
    obtain ⟨e1, h1⟩ := ran_step P st s
    obtain ⟨e2, h2, w2⟩ := ih (afterStep P s st)
    refine ⟨e1 ++ e2, h1.ran.trans h2, fun hn => ?_⟩
    rw [List.all_append, h1.noCe (hn st (List.mem_cons_self ..)), w2 fun x hx => hn x (List.mem_cons_of_mem _ hx)]
    rfl

theorem recipeState_succ (P : Params) (p : Pins) (s : State) (k : Nat) (h : k < 20) :
    recipeState P p s (k + 1) = afterStep P (recipeState P p s k) P.recipe[k] := by
  have : P.recipe.toList.take (k + 1) = P.recipe.toList.take k ++ [P.recipe[k]] := by
    rw [List.take_add_one, List.getElem?_eq_getElem (by simpa using h)]
    simp
  rw [recipeState, this, List.foldl_append]
  rfl

/-- The first `n` steps of a recipe: their frames are those of each step in order (70_reset_and_hazards R153). -/
theorem ran_recipe (P : Params) (p : Pins) (s : State) (n : Nat) (hn : n ≤ 20) :
    ∃ es, Ran P.tSettle wireOrCe (afterPinInit p s) (recipeState P p s n) es
      ∧ framesOf es
        = (List.range n).flatMap fun k => framesOf (newEvents (recipeState P p s k) (recipeState P p s (k + 1))) := by
  induction n with
  | zero => exact ⟨[], Ran.refl _ _ _, rfl⟩
  | succ n ih =>
    obtain ⟨es, h, hf⟩ := ih (by omega)
    obtain ⟨e2, h2⟩ := ran_step P P.recipe[n] (recipeState P p s n)
    have hr := h2.ran
    rw [← recipeState_succ P p s n (by omega)] at hr
    refine ⟨_, h.trans hr, ?_⟩
    rw [h.framesOf_append, hf, List.range_succ, List.flatMap_append, List.flatMap_singleton, hr.newEvents]

end Sys2Proof.Laws
end

