-- ==== Sys2Proof/Laws/Exec.lean ====
section
/-! SUPPORT. Said once: what an instruction can do when it answers a next state (`exec_did`, for every instruction but
TRANSFER_BYTE in a frame and BEGIN, which have `xfer_next` and `begin_next`), and what a step can do (`step_cases`). Every invariant
is derived from these. -/

namespace Sys2Proof.Laws

open Sys2Proof.Machine Sys2Proof.Safety

/-! ### Inversion of the admission -/

theorem ifIdle_next {s t : State} {k : Outcome} (h : ifIdle s k = .next t) : s.busy = false ∧ k = .next t := by
  unfold ifIdle at h
  split at h
  · cases h
  · exact ⟨by simp_all, h⟩

theorem whenReady_next {n : Nat} {s t : State} {k : Outcome} (h : whenReady n s k = .next t) :
    s.busy = false ∧ s.bound = true ∧ k = .next t := by
  obtain ⟨hb, h⟩ := ifIdle_next h
  split at h
  · exact ⟨hb, ‹_›, h⟩
  · cases h

theorem whenReadyCommand_next {c : Byte} {s t : State} {k : Outcome} (h : whenReadyCommand c s k = .next t) :
    s.busy = false ∧ s.bound = true ∧ k = .next t := by
  obtain ⟨hb, h⟩ := ifIdle_next h
  split at h
  · exact ⟨hb, ‹_›, h⟩
  · cases h

theorem withBitPos_next {b : Byte} {t : State} {k : BitPos → Outcome} (h : withBitPos b k = .next t) :
    ∃ i, bitPos? b = some i ∧ k i = .next t := by
  unfold withBitPos at h
  split at h
  · exact ⟨_, ‹_›, h⟩
  · cases h

theorem complete_next {u t : State} (h : complete u = .next t) : t = ended u := by
  cases h
  rfl

/-! ### Admission of a ready block -/

theorem whenReady_of_ready {s : State} (h : Ready s) (n : Nat) (k : Outcome) : whenReady n s k = k := by
  simp [whenReady, ifIdle, h.1, h.2]

theorem whenReadyCommand_of_ready {s : State} (h : Ready s) (c : Byte) (k : Outcome) : whenReadyCommand c s k = k := by
  simp [whenReadyCommand, ifIdle, h.1, h.2]

/-! ### Bit positions -/

theorem bitPos_some (b : Byte) (h : b.toNat ≤ 7) : bitPos? b = some ⟨b.toNat, by omega⟩ := by
  simp [bitPos?, show b.toNat < 8 by omega]

theorem bitPos_none (b : Byte) (h : 7 < b.toNat) : bitPos? b = none := by
  simp [bitPos?]
  omega

theorem testBitIn_eq (v : Byte) (i : BitPos) : testBitIn v i = v.getLsbD i := by
  revert v i
  decide

/-! ### The start of an operation changes no sample -/

@[simp] theorem sample_enter (s : State) (k : Nat) : sample (enter s) k = sample s k := rfl

@[simp] theorem sampledByte_enter (s : State) (k : Nat) : sampledByte (enter s) k = sampledByte s k := rfl

@[simp] theorem sampledByte_afterCe (l : Level) (s : State) (k : Nat) :
    sampledByte (afterCe l s) k = sampledByte s k := rfl

@[simp] theorem reply_enter (s : State) (k n : Nat) : reply (enter s) k n = reply s k n := by
  simpa using reply_shift s (enter s) 0 (by simp) k n

@[simp] theorem rateRead_enter (P : Params) (s : State) : rateRead P (enter s) = rateRead P s := rfl

/-! ### What an instruction did -/

/-- From `s` to `t` one operation was performed whole, with the events `es`, and it has ended or stands at its NOTIFY. -/
structure Did (T : Nat) (ok : Event → Bool) (s t : State) (es : List Event) : Prop where
  trace : t.trace = s.trace ++ es
  pc : t.pc = es.length
  kinds : es.all ok = true
  pins : t.pins = s.pins
  bound : t.bound = s.bound
  dir : t.dir = s.dir
  inbox : t.inbox = s.inbox
  busy : t.busy = false
  drawn : t.drawn = s.drawn + samplesIn es
  misoIn : t.misoIn = s.misoIn.drop (samplesIn es)
  latches : ∀ p, latch t p = (lastLevel p es).getD (latch s p)
  bitcnt : s.bitcnt ≤ 8 → t.bitcnt ≤ 8
  csn : s.csn = true → t.csn = true
  sck : s.sck = false → t.sck = false
  bus : busRun T es .idle = some .idle
  frames : ∀ rest, framesFrom (es ++ rest) none = framesFrom es none ++ framesFrom rest none
  high : ∀ rest, waitsWhileHigh true (es ++ rest) = waitsWhileHigh true rest

theorem Did.newEvents {T : Nat} {ok : Event → Bool} {s t : State} {es : List Event} (h : Did T ok s t es) :
    newEvents s t = es := by
  rw [Safety.newEvents, h.trace, List.drop_left]

/-- A run from the start of an operation, ended, is an operation performed. -/
theorem Ran.did {T : Nat} {ok : Event → Bool} {s u : State} {es : List Event} (h : Ran T ok (enter s) u es) :
    Did T ok s (ended u) es where
  trace := h.trace
  pc := by rw [ended_pc, h.pc, enter_pc, Nat.zero_add]
  kinds := h.kinds
  pins := h.pins
  bound := h.bound
  dir := h.dir
  inbox := h.inbox
  busy := rfl
  drawn := h.drawn
  misoIn := h.misoIn
  latches p := by rw [latch_ended, h.latches, latch_enter]
  bitcnt := h.bitcnt
  csn := h.csn
  sck := h.sck
  bus := h.bus
  frames := h.frames
  high := h.high

/-- The kinds of event an instruction may record besides those of a frame. -/
def kindsOf (i : Instr) (e : Event) : Bool :=
  wireEvent e ||
    match e with
    | .set .ce _ => i == .rxmode
    | .notify _ => i == .poll
    | .result _ => i != .rxmode && i != .poll
    | _ => false

/-- What an instruction is known to have done, its windows and its handler slot included. -/
def ExecDid (i : Instr) (s t : State) : Prop :=
  ∃ es, Did Config.params.tSettle (kindsOf i) s t es
    ∧ (i ≠ .poll → t.windows = s.windows) ∧ ((∀ h, i ≠ .onrx h) → t.rxHandler = s.rxHandler)

theorem execDid_of_ran {i : Instr} {s u t : State} {ok : Event → Bool} {es : List Event}
    (h : Ran Config.params.tSettle ok (enter s) u es) (hk : ∀ e, ok e = true → kindsOf i e = true) (ht : t = ended u) :
    ExecDid i s t := by
  subst ht
  exact ⟨es, (h.mono hk).did, fun _ => h.windows, fun _ => h.rxHandler⟩

theorem kindsOf_wire (i : Instr) (e : Event) (h : wireEvent e = true) : kindsOf i e = true := by
  simp [kindsOf, h]

/-- An operation of wire events that ends without a result. -/
theorem execDid_wire {i : Instr} {s u t : State} (h : ∃ es, Ran Config.params.tSettle wireEvent (enter s) u es)
    (ht : complete u = .next t) : ExecDid i s t :=
  let ⟨_, h⟩ := h
  execDid_of_ran h (kindsOf_wire i) (complete_next ht)

/-- An operation of wire events that returns a value. -/
theorem execDid_result {i : Instr} {s u t : State} {r : Result} (hi : i ≠ .rxmode) (hp : i ≠ .poll)
    (h : ∃ es, Ran Config.params.tSettle wireEvent (enter s) u es) (ht : complete (respond r u) = .next t) :
    ExecDid i s t := by
  obtain ⟨es, h⟩ := h
  refine execDid_of_ran ((h.mono (kindsOf_wire i)).trans ((ran_result _ r u).mono fun e he => ?_)) (fun _ h => h)
    (complete_next ht)
  rw [eq_of_beq he]
  simp [kindsOf, hi, hp]

theorem ran_rmw' (addr : Byte) (f : Byte → Byte) (s : State) :
    ∃ es, Ran Config.params.tSettle wireEvent s (afterRmw Config.params.tSettle addr f s) es :=
  let ⟨es, h, _⟩ := ran_rmw _ addr f s
  ⟨es, h⟩

theorem ran_frame' (c : Byte) (d : List Byte) (s : State) :
    ∃ es, Ran Config.params.tSettle wireEvent s (afterFrame Config.params.tSettle c d s) es :=
  ⟨_, ran_frame _ c d s⟩

/-- poll ends with its read frame, or stands at NOTIFY, or has cleared the bit. -/
theorem poll_did {s t : State} (h : poll Config.params (enter s) = .next t) : ExecDid .poll s t := by
  have hr := ran_frame Config.params.tSettle (cmdR (regByte Config.params.regStatus)) [0] (enter s)
  simp only [poll, readBit_eq] at h
  split at h
  · split at h
    · rename_i hd _
      cases h
      refine ⟨frameEvents Config.params.tSettle (cmdR (regByte Config.params.regStatus)) [0] (enter s) ++ [.notify hd], ?_,
        fun hn => absurd rfl hn, fun _ => rfl⟩
      have hb := hr.did.bus
      have hf := hr.did.frames
      have hh := hr.did.high
      refine { trace := ?_, pc := ?_, kinds := ?_, pins := rfl, bound := rfl, dir := rfl, inbox := rfl, busy := rfl,
               drawn := ?_, misoIn := ?_, latches := ?_, bitcnt := fun _ => Nat.le_refl 8, csn := fun _ => rfl, sck := fun _ => rfl, bus := ?_, frames := ?_,
               high := ?_ }
      · simp [openWindow, record, afterRead]
      · simp [openWindow, record, afterRead, frameEvents_length]
      · rw [List.all_append, List.all_eq_true.mpr fun e he =>
          kindsOf_wire .poll e (List.all_eq_true.mp (frameEvents_wire _ _ _ _) e he)]
        rfl
      · rw [samplesIn_append, show samplesIn [Event.notify hd] = 0 from rfl, Nat.add_zero]
        exact hr.drawn
      · rw [samplesIn_append, show samplesIn [Event.notify hd] = 0 from rfl, Nat.add_zero]
        exact hr.misoIn
      · intro p
        rw [lastLevel_append, show lastLevel p [Event.notify hd] = none by simp [lastLevel], Option.none_or]
        exact (hr.latches p).trans (by rw [latch_enter])
      · rw [busRun_append, hb]; rfl
      · intro rest
        rw [List.append_assoc, hf, hf]
        simp [framesFrom]
      · intro rest
        rw [List.append_assoc, hh]
        simp [waitsWhileHigh]
    · rw [clearReady_eq] at h
      obtain ⟨es, hc⟩ := ran_clear Config.params (afterRead Config.params.tSettle
        (cmdR (regByte Config.params.regStatus)) 1 (enter s))
      exact execDid_wire ⟨_, hr.trans hc⟩ h
  · exact execDid_wire ⟨_, hr⟩ h

/-- What an instruction that answers a next state did; TRANSFER_BYTE and BEGIN have lemmas of their own. -/
theorem exec_did {i : Instr} {s t : State} (h : exec i s = .next t) (hx : ∀ out, i ≠ .xfer out)
    (hb : ∀ p, i ≠ .beginPins p) : s.busy = false ∧ ExecDid i s t := by
  cases i with
  | xfer out => exact absurd rfl (hx out)
  | beginPins p => exact absurd rfl (hb p)
  | wcmd c d =>
    obtain ⟨hi, _, h⟩ := whenReady_next h
    rw [memWrite_eq] at h
    exact ⟨hi, execDid_wire (ran_frame' _ _ _) h⟩
  | rregn a n =>
    obtain ⟨hi, _, h⟩ := whenReady_next h
    simp only [memRead_eq] at h
    exact ⟨hi, execDid_result (by simp) (by simp) (ran_frame' _ _ _) h⟩
  | rreg a =>
    obtain ⟨hi, _, h⟩ := whenReady_next h
    simp only [readRegister_eq] at h
    exact ⟨hi, execDid_result (by simp) (by simp) (ran_frame' _ _ _) h⟩
  | wregn a l n =>
    obtain ⟨hi, _, h⟩ := whenReady_next h
    split at h
    · cases h
    · rw [memWrite_eq] at h
      exact ⟨hi, execDid_wire (ran_frame' _ _ _) h⟩
  | wreg a v =>
    obtain ⟨hi, _, h⟩ := whenReady_next h
    rw [writeRegister_eq] at h
    exact ⟨hi, execDid_wire (ran_frame' _ _ _) h⟩
  | setb a b =>
    obtain ⟨hi, _, h⟩ := whenReady_next h
    obtain ⟨p, _, h⟩ := withBitPos_next h
    rw [setBit_eq] at h
    exact ⟨hi, execDid_wire (ran_rmw' _ _ _) h⟩
  | clrb a b =>
    obtain ⟨hi, _, h⟩ := whenReady_next h
    obtain ⟨p, _, h⟩ := withBitPos_next h
    rw [clearBit_eq] at h
    exact ⟨hi, execDid_wire (ran_rmw' _ _ _) h⟩
  | rbit a b =>
    obtain ⟨hi, _, h⟩ := whenReady_next h
    obtain ⟨p, _, h⟩ := withBitPos_next h
    simp only [readBit_eq] at h
    exact ⟨hi, execDid_result (by simp) (by simp) (ran_frame' _ _ _) h⟩
  | rplw =>
    obtain ⟨hi, _, h⟩ := whenReady_next h
    simp only [memRead_eq] at h
    exact ⟨hi, execDid_result (by simp) (by simp) (ran_frame' _ _ _) h⟩
  | rpl n =>
    obtain ⟨hi, _, h⟩ := whenReady_next h
    simp only [memRead_eq] at h
    exact ⟨hi, execDid_result (by simp) (by simp) (ran_frame' _ _ _) h⟩
  | pwrup =>
    obtain ⟨hi, _, h⟩ := whenReady_next h
    rw [powerUp, setBit_eq] at h
    exact ⟨hi, execDid_wire (ran_rmw' _ _ _) h⟩
  | pwrdn =>
    obtain ⟨hi, _, h⟩ := whenReady_next h
    rw [shutDown, clearBit_eq] at h
    exact ⟨hi, execDid_wire (ran_rmw' _ _ _) h⟩
  | rxmode =>
    obtain ⟨hi, _, h⟩ := whenReady_next h
    rw [setModeRX_eq] at h
    obtain ⟨es, hr⟩ := ran_setModeRX Config.params (enter s)
    refine ⟨hi, execDid_of_ran hr (fun e he => ?_) (complete_next h)⟩
    match e with
    | .set .ce _ => rfl
    | .set .sck _ | .set .mosi _ | .set .csn _ | .wait _ | .get .miso _ => exact kindsOf_wire _ _ he
    | .get .irq _ | .dir _ _ | .notify _ | .result _ => exact kindsOf_wire _ _ he
  | ch c =>
    obtain ⟨hi, _, h⟩ := whenReady_next h
    rw [setCh, writeRegister_eq] at h
    exact ⟨hi, execDid_wire (ran_frame' _ _ _) h⟩
  | dr r =>
    obtain ⟨hi, _, h⟩ := whenReady_next h
    rw [setDataRate_eq] at h
    exact ⟨hi, execDid_wire (ran_setDataRate _ _ _) h⟩
  | gdr =>
    obtain ⟨hi, _, h⟩ := whenReady_next h
    simp only [getDataRate_eq] at h
    exact ⟨hi, execDid_result (by simp) (by simp) (ran_getDataRate _ _) h⟩
  | crc n =>
    obtain ⟨hi, _, h⟩ := whenReady_next h
    split at h
    · unfold setCRCSize at h
      split at h
      · rw [clearBit_eq] at h
        exact ⟨hi, execDid_wire (ran_rmw' _ _ _) h⟩
      · exact ⟨hi, execDid_wire ⟨[], Ran.refl _ _ _⟩ h⟩
      · rw [setBit_eq] at h
        exact ⟨hi, execDid_wire (ran_rmw' _ _ _) h⟩
    · cases h
  | dynackOn =>
    obtain ⟨hi, _, h⟩ := whenReady_next h
    rw [enableDynAck, setBit_eq] at h
    exact ⟨hi, execDid_wire (ran_rmw' _ _ _) h⟩
  | dynackOff =>
    obtain ⟨hi, _, h⟩ := whenReady_next h
    rw [disableDynAck, clearBit_eq] at h
    exact ⟨hi, execDid_wire (ran_rmw' _ _ _) h⟩
  | plw p w =>
    obtain ⟨hi, _, h⟩ := whenReady_next h
    rw [setRxPayloadWidth, writeRegister_eq] at h
    exact ⟨hi, execDid_wire (ran_frame' _ _ _) h⟩
  | onrx hd =>
    obtain ⟨hi, h⟩ := ifIdle_next h
    cases h
    refine ⟨hi, [], ?_, fun _ => rfl, fun hn => absurd rfl (hn hd)⟩
    have h0 := (Ran.refl Config.params.tSettle (kindsOf (.onrx hd)) (enter s)).did
    exact { h0 with latches := fun p => by rw [← h0.latches p]; cases p <;> rfl }
  | poll =>
    obtain ⟨hi, _, h⟩ := whenReady_next h
    exact ⟨hi, poll_did h⟩
  | cmdReadRegister a n =>
    obtain ⟨hi, _, h⟩ := whenReadyCommand_next h
    rw [memRead_eq] at h
    exact ⟨hi, execDid_wire (ran_frame' _ _ _) h⟩
  | cmdWriteRegister a d =>
    obtain ⟨hi, _, h⟩ := whenReadyCommand_next h
    rw [memWrite_eq] at h
    exact ⟨hi, execDid_wire (ran_frame' _ _ _) h⟩
  | cmdReadRxPayloadWidth =>
    obtain ⟨hi, _, h⟩ := whenReadyCommand_next h
    rw [memRead_eq] at h
    exact ⟨hi, execDid_wire (ran_frame' _ _ _) h⟩
  | cmdReadRxPayload n =>
    obtain ⟨hi, _, h⟩ := whenReadyCommand_next h
    rw [memRead_eq] at h
    exact ⟨hi, execDid_wire (ran_frame' _ _ _) h⟩

/-- TRANSFER_BYTE answers a next state only with chip-select low. -/
theorem xfer_next {out : Byte} {s t : State} (h : exec (.xfer out) s = .next t) :
    s.busy = false ∧ s.bound = true ∧ s.csn = false
    ∧ t = ended (returned (.byte (sampledByte s 0)) (afterTransfer Config.params.tSettle out (enter s))) := by
  obtain ⟨hi, hb, h⟩ := whenReady_next h
  split at h
  · cases h
  · simp only [transfer_eq] at h
    exact ⟨hi, hb, by simp_all, complete_next h⟩

/-- BEGIN answers a next state only on an unbound, idle block. -/
theorem begin_next {p : Option Pins} {s t : State} (h : exec (.beginPins p) s = .next t) :
    s.busy = false ∧ s.bound = false ∧ (p.getD Config.params.pins).distinct = true
    ∧ t = ended (afterBegin Config.params (p.getD Config.params.pins) (enter s)) := by
  obtain ⟨hi, h⟩ := ifIdle_next h
  split at h
  · cases h
  · rename_i hb
    cases p with
    | none =>
      simp only [bootWith_eq] at h
      exact ⟨hi, by simpa using hb, params_pins_distinct, complete_next h⟩
    | some p =>
      simp only [bootWith_eq] at h
      split at h
      · exact ⟨hi, by simpa using hb, ‹_›, complete_next h⟩
      · cases h

theorem newEvents_of {s t : State} {es : List Event} (h : t.trace = s.trace ++ es) : newEvents s t = es := by
  rw [Safety.newEvents, h, List.drop_left]

/-- The events of a TRANSFER_BYTE. -/
theorem xfer_trace (T : Nat) (out : Byte) (s : State) (r : Result) :
    (ended (returned r (afterTransfer T out (enter s)))).trace
      = s.trace ++ (byteEvents T (enter s) 0 out ++ [.result r]) := by
  simp [afterTransfer]

/-- BEGIN after its pin initialisation: the steps of the recipe and chip-enable high. -/
theorem begin_ran (p : Pins) (s : State) :
    ∃ es, Ran Config.params.tSettle wireOrCe (afterPinInit p (enter s)) (afterBegin Config.params p (enter s))
        (es ++ [.set .ce true])
      ∧ (ended (afterBegin Config.params p (enter s))).trace = s.trace ++ (pinInitEvents ++ (es ++ [.set .ce true])) := by
  obtain ⟨es, h, _⟩ := ran_steps Config.params Config.params.recipe.toList (afterPinInit p (enter s))
  have hr := h.trans ((ran_ce _ true _).mono (wireOrCe_of_ce _))
  refine ⟨es, hr, ?_⟩
  rw [ended_trace, afterBegin, hr.trace, afterPinInit_trace, List.append_assoc]
  rfl

/-- The handler's return clears the bit and ends the innermost poll. -/
theorem return_next {s t : State} (h : returnFromHandler s = .next t) :
    s.busy = false ∧ ∃ pc outer, s.windows = pc :: outer
      ∧ t = ended (afterClear Config.params { s with windows := outer, busy := true, pc := pc }) := by
  obtain ⟨hi, h⟩ := ifIdle_next h
  split at h
  · cases h
  · rw [clearReady_eq] at h
    exact ⟨hi, _, _, ‹_›, complete_next h⟩

/-- What a step can do: nothing, an instruction, the handler's return. -/
theorem step_cases {s t : State} (h : step s = .next t) :
    (s.inbox = [] ∧ t = s)
    ∨ (∃ x rest i, s.inbox = x :: rest ∧ exec i { s with inbox := rest } = .next t)
    ∨ (∃ x rest, s.inbox = x :: rest ∧ returnFromHandler { s with inbox := rest } = .next t) := by
  unfold step at h
  split at h
  · cases h; exact .inl ⟨‹_›, rfl⟩
  · rename_i x rest hx
    split at h
    · exact .inr (.inl ⟨x, rest, _, hx, h⟩)
    · rename_i i _
      have hi : ∀ u : State, u.busy = true → exec i u ≠ .next t := fun u hu h => by
        by_cases hxf : ∃ out, i = .xfer out
        · obtain ⟨out, rfl⟩ := hxf; exact absurd (xfer_next h).1 (by simp [hu])
        · by_cases hbg : ∃ p, i = .beginPins p
          · obtain ⟨p, rfl⟩ := hbg; exact absurd (begin_next h).1 (by simp [hu])
          · exact absurd (exec_did h (fun o ho => hxf ⟨o, ho⟩) fun p hp => hbg ⟨p, hp⟩).1 (by simp [hu])
      exact absurd h (hi _ rfl)
    · exact .inr (.inr ⟨x, rest, hx, h⟩)
    · cases h

end Sys2Proof.Laws
end

