-- ==== Sys2Proof/Laws/PerInstr.lean ====
section
/-! SUPPORT. One statement for every instruction: its encoding starts with the bits of its row of spec/opcode_table.json. -/

namespace Sys2Proof.Laws.OpcodeRow

/-- The mask and the match of an instruction's row. -/
def maskMatch : Instr → Byte × Byte
  | .xfer _ => (0xFF, 0x00)
  | .wcmd _ _ => (0xFF, 0x01)
  | .rregn _ _ => (0xFF, 0x02)
  | .rreg _ => (0xFF, 0x03)
  | .wregn _ _ _ => (0xFF, 0x04)
  | .wreg _ _ => (0xFF, 0x05)
  | .setb _ _ => (0xFF, 0x06)
  | .clrb _ _ => (0xFF, 0x07)
  | .rbit _ _ => (0xFF, 0x08)
  | .rplw => (0xFF, 0x09)
  | .rpl _ => (0xFF, 0x0A)
  | .pwrup => (0xFF, 0x0B)
  | .pwrdn => (0xFF, 0x0C)
  | .rxmode => (0xFF, 0x0D)
  | .ch _ => (0xFF, 0x0E)
  | .dr _ => (0xFF, 0x0F)
  | .gdr => (0xFF, 0x10)
  | .crc _ => (0xFF, 0x11)
  | .dynackOn => (0xFF, 0x12)
  | .dynackOff => (0xFF, 0x13)
  | .plw _ _ => (0xFF, 0x14)
  | .onrx _ => (0xFF, 0x15)
  | .poll => (0xFF, 0x16)
  | .beginPins _ => (0xFF, 0x17)
  | .cmdReadRegister _ _ => (0xE0, 0x00)
  | .cmdWriteRegister _ _ => (0xE0, 0x20)
  | .cmdReadRxPayloadWidth => (0xFF, 0x60)
  | .cmdReadRxPayload _ => (0xFF, 0x61)

/-- The first byte of the encoding has the bits of the row. -/
def Statement (i : Instr) : Prop :=
  ∃ b rest, encode i = b :: rest ∧ b &&& (maskMatch i).1 = (maskMatch i).2

theorem xfer (out : Byte) : Statement (.xfer out) := ⟨_, _, rfl, by simp [maskMatch]⟩
theorem wcmd (cmd : Byte) (data : List Byte) : Statement (.wcmd cmd data) := ⟨_, _, rfl, by simp [maskMatch]⟩
theorem rregn (addr : Byte) (len : Nat) : Statement (.rregn addr len) := ⟨_, _, rfl, by simp [maskMatch]⟩
theorem rreg (addr : Byte) : Statement (.rreg addr) := ⟨_, _, rfl, by simp [maskMatch]⟩
theorem wregn (addr : Byte) (buf : List Byte) (len : Nat) : Statement (.wregn addr buf len) := ⟨_, _, rfl, by simp [maskMatch]⟩
theorem wreg (addr : Byte) (value : Byte) : Statement (.wreg addr value) := ⟨_, _, rfl, by simp [maskMatch]⟩
theorem setb (addr : Byte) (bitIndex : Byte) : Statement (.setb addr bitIndex) := ⟨_, _, rfl, by simp [maskMatch]⟩
theorem clrb (addr : Byte) (bitIndex : Byte) : Statement (.clrb addr bitIndex) := ⟨_, _, rfl, by simp [maskMatch]⟩
theorem rbit (addr : Byte) (bitIndex : Byte) : Statement (.rbit addr bitIndex) := ⟨_, _, rfl, by simp [maskMatch]⟩
theorem rplw : Statement .rplw := ⟨_, _, rfl, by simp [maskMatch]⟩
theorem rpl (len : Nat) : Statement (.rpl len) := ⟨_, _, rfl, by simp [maskMatch]⟩
theorem pwrup : Statement .pwrup := ⟨_, _, rfl, by simp [maskMatch]⟩
theorem pwrdn : Statement .pwrdn := ⟨_, _, rfl, by simp [maskMatch]⟩
theorem rxmode : Statement .rxmode := ⟨_, _, rfl, by simp [maskMatch]⟩
theorem ch (channel : Byte) : Statement (.ch channel) := ⟨_, _, rfl, by simp [maskMatch]⟩
theorem dr (rate : DataRate) : Statement (.dr rate) := ⟨_, _, rfl, by simp [maskMatch]⟩
theorem gdr : Statement .gdr := ⟨_, _, rfl, by simp [maskMatch]⟩
theorem crc (n : Byte) : Statement (.crc n) := ⟨_, _, rfl, by simp [maskMatch]⟩
theorem dynackOn : Statement .dynackOn := ⟨_, _, rfl, by simp [maskMatch]⟩
theorem dynackOff : Statement .dynackOff := ⟨_, _, rfl, by simp [maskMatch]⟩
theorem plw (pipe : Byte) (width : Byte) : Statement (.plw pipe width) := ⟨_, _, rfl, by simp [maskMatch]⟩
theorem onrx (handler : Option Handler) : Statement (.onrx handler) := ⟨_, _, rfl, by simp [maskMatch]⟩
theorem poll : Statement .poll := ⟨_, _, rfl, by simp [maskMatch]⟩
theorem beginPins (pins : Option Pins) : Statement (.beginPins pins) := ⟨_, _, rfl, by simp [maskMatch]⟩
theorem cmdReadRegister (a : RegAddr) (len : Nat) : Statement (.cmdReadRegister a len) :=
  ⟨_, _, rfl, by show Machine.cmdR (Machine.regByte a) &&& 0xE0 = 0x00; revert a; decide⟩
theorem cmdWriteRegister (a : RegAddr) (data : List Byte) : Statement (.cmdWriteRegister a data) :=
  ⟨_, _, rfl, by show Machine.cmdW (Machine.regByte a) &&& 0xE0 = 0x20; revert a; decide⟩
theorem cmdReadRxPayloadWidth : Statement .cmdReadRxPayloadWidth := ⟨_, _, rfl, by simp [maskMatch, Machine.cmdPayloadWidth]⟩
theorem cmdReadRxPayload (len : Nat) : Statement (.cmdReadRxPayload len) := ⟨_, _, rfl, by simp [maskMatch, Machine.cmdPayload]⟩

end Sys2Proof.Laws.OpcodeRow
end

