-- ==== Sys2Proof/Tests/Slice0.lean ====
section
/-! SUPPORT. The model's own tests: ill-formed terms, words written out from the spec's encodings, the vectors of
95_test_vectors, and a witness for the hypotheses of every statement that has any. Expected values come from spec/. -/

namespace Sys2Proof.Tests

open Sys2Proof.Machine Sys2Proof.Safety Sys2Proof.Laws

-- One test at a time: a `decide +kernel` waits for every declaration before it, and each that waits holds a thread's stack.
set_option Elab.async false

/-! ### States -/

/-- The start state S0 of 95_test_vectors, with a slave that drives the given bytes and a host that sends the given items. -/
def ready (answers : List Byte) (inbox : List HostInput := []) : State :=
  { State.reset with
    bound := true
    pins := some { sck := 0, miso := 1, mosi := 2, csn := 3, ce := 4, irq := 5 }
    dir := { sck := .output, miso := .input, mosi := .output, csn := .output, ce := .output, irq := .input }
    ce := true
    misoIn := levelsOf answers
    inbox := inbox }

/-- S0 with chip-select held low. -/
def held (answers : List Byte) : State := { ready answers with csn := false }

/-- S0 with a receive handler. -/
def listening (answers : List Byte) : State := { ready answers with rxHandler := some 9 }

/-- S0 inside a NOTIFY window. -/
def inWindow (answers : List Byte) (inbox : List HostInput := []) : State :=
  { ready answers inbox with rxHandler := some 9, windows := [115] }

/-- The example binding EB in other forms. -/
def formed (sdr : SdrForm) (gdr : GdrForm) (clear : PollClearForm) : Params :=
  { exampleBinding with sdrForm := sdr, gdrForm := gdr, pollClearForm := clear }

/-- The frames of the next state, where there is one. -/
def framesAfter (o : Outcome) : Option (List (List Byte)) := (nextState? o).map fun t => framesOf t.trace

/-- The last event of the next state, where there is one. -/
def lastAfter (o : Outcome) : Option Event := (nextState? o).bind lastEvent?

theorem ready_is_ready (answers : List Byte) (inbox : List HostInput) : Ready (ready answers inbox) := ⟨rfl, rfl⟩

/-! ### Ill-formed terms -/

theorem test_wf_bitIndex : (Instr.setb 0x00 8).wellFormed = false ∧ (Instr.clrb 0x00 8).wellFormed = false
    ∧ (Instr.rbit 0x00 255).wellFormed = false ∧ (Instr.setb 0x00 7).wellFormed = true := by decide

theorem test_wf_crc : (Instr.crc 3).wellFormed = false ∧ (Instr.crc 255).wellFormed = false
    ∧ (Instr.crc 2).wellFormed = true := by decide

theorem test_wf_buffer : (Instr.wregn 0x10 [0x01] 2).wellFormed = false
    ∧ (Instr.wregn 0x10 [0x01, 0x02] 1).wellFormed = true := by decide

theorem test_wf_pins : (Instr.beginPins (some ⟨0, 1, 2, 3, 4, 4⟩)).wellFormed = false
    ∧ (Instr.beginPins (some ⟨0, 1, 2, 3, 4, 5⟩)).wellFormed = true ∧ (Instr.beginPins none).wellFormed = true := by
  decide

/-- The example binding obeys the laws of the parameters (00_scope R7), and each law is one. -/
theorem test_params_wf : exampleBinding.wf = true
    ∧ { exampleBinding with tSettle := 0 }.wf = false
    ∧ { exampleBinding with bitDrLo := 5 }.wf = false
    ∧ { exampleBinding with bitPwr := 0 }.wf = false
    ∧ { exampleBinding with pins := ⟨0, 1, 2, 3, 4, 0⟩ }.wf = false
    ∧ { exampleBinding with recipe := exampleBinding.recipe.set 16 (.writeRegisterN 0x0A [0xA7]) }.wf = false
    ∧ { exampleBinding with recipe := exampleBinding.recipe.set 1 .setModeRX }.wf = false := by
  decide

/-! ### Words written out from the spec -/

/-- Ordinals of 30_encoding R73, and request lines of 95_test_vectors P1 to P3. -/
theorem test_decode_transport : decode .hostop [0, 0x55] = .ok (.xfer 0x55)
    ∧ decode .hostop [1, 0x25, 1, 0x28] = .ok (.wcmd 0x25 [0x28]) := by decide

theorem test_decode_register : decode .hostop [2, 0x10, 5] = .ok (.rregn 0x10 5)
    ∧ decode .hostop [3, 0x05] = .ok (.rreg 0x05)
    ∧ decode .hostop [4, 0x10, 5, 0xA7, 0x93, 0xB4, 0x55, 0xAA, 5] = .ok (.wregn 0x10 [0xA7, 0x93, 0xB4, 0x55, 0xAA] 5)
    ∧ decode .hostop [5, 0x05, 0x4C] = .ok (.wreg 0x05 0x4C)
    ∧ decode .hostop [6, 0x00, 1] = .ok (.setb 0x00 1)
    ∧ decode .hostop [7, 0x00, 7] = .ok (.clrb 0x00 7)
    ∧ decode .hostop [8, 0x00, 3] = .ok (.rbit 0x00 3)
    ∧ decode .hostop [9] = .ok .rplw
    ∧ decode .hostop [10, 3] = .ok (.rpl 3) := by decide

theorem test_decode_radio : decode .hostop [11] = .ok .pwrup ∧ decode .hostop [12] = .ok .pwrdn
    ∧ decode .hostop [13] = .ok .rxmode ∧ decode .hostop [14, 0x4C] = .ok (.ch 0x4C)
    ∧ decode .hostop [15, 2] = .ok (.dr .dr250K) ∧ decode .hostop [16] = .ok .gdr
    ∧ decode .hostop [17, 0] = .ok (.crc 0) ∧ decode .hostop [18] = .ok .dynackOn
    ∧ decode .hostop [19] = .ok .dynackOff ∧ decode .hostop [20, 8, 0x20] = .ok (.plw 8 0x20) := by decide

theorem test_decode_receive : decode .hostop [21, 0] = .ok (.onrx none) ∧ decode .hostop [21, 1, 9] = .ok (.onrx (some 9))
    ∧ decode .hostop [22] = .ok .poll := by decide

theorem test_decode_begin : decode .hostop [23, 0] = .ok (.beginPins none)
    ∧ decode .hostop [23, 1, 0, 1, 2, 3, 4, 5] = .ok (.beginPins (some ⟨0, 1, 2, 3, 4, 5⟩)) := by decide

/-- The command bytes of 30_encoding R62 to R65, bit by bit. -/
theorem test_decode_wire : decode .cmd8 [0b00000101, 1] = .ok (.cmdReadRegister 0b00101 1)
    ∧ decode .cmd8 [0b00011111, 0] = .ok (.cmdReadRegister 0b11111 0)
    ∧ decode .cmd8 [0b00100101, 1, 0x28] = .ok (.cmdWriteRegister 0b00101 [0x28])
    ∧ decode .cmd8 [0b00111111, 0] = .ok (.cmdWriteRegister 0b11111 [])
    ∧ decode .cmd8 [0b01100000] = .ok .cmdReadRxPayloadWidth
    ∧ decode .cmd8 [0b01100001, 3] = .ok (.cmdReadRxPayload 3) := by decide

/-- No request and no listed command (30_encoding R72, R75; 60_exceptions R140). -/
theorem test_decode_refused : decode .hostop [24] = .error (.unknownOrdinal 24) ∧ decode .hostop [] = .error .truncated
    ∧ decode .hostop [5, 0x05] = .error .truncated ∧ decode .hostop [22, 0] = .error .trailingBytes
    ∧ decode .hostop [15, 3] = .error (.badTag 3)
    ∧ decode .cmd8 [0x45] = .error (.unlistedCommand 0x45) ∧ decode .cmd8 [0x62] = .error (.unlistedCommand 0x62)
    ∧ decode .cmd8 [0x80] = .error (.unlistedCommand 0x80) ∧ decode .cmd8 [0xFF] = .error (.unlistedCommand 0xFF) := by
  decide

/-- A number has one spelling: 128 is two bytes, and a last byte of 0 is refused (log entry 7). -/
theorem test_decode_number : decode .hostop [10, 0x80, 0x01] = .ok (.rpl 128)
    ∧ decode .hostop [10, 0x85, 0x00] = .error .overlongNumber := by decide

/-- Words of spec/opcode_table.json; word 0 is an ordinal and a command byte, and reads as the request (log entry 10). -/
theorem test_table_words : decodeTableWord 8 0 = some (.xfer 0) ∧ decodeTableWord 8 13 = some .rxmode
    ∧ decodeTableWord 8 23 = some (.beginPins none) ∧ decodeTableWord 8 0x1F = some (.cmdReadRegister 0x1F 0)
    ∧ decodeTableWord 8 0x20 = some (.cmdWriteRegister 0x00 []) ∧ decodeTableWord 8 0x60 = some .cmdReadRxPayloadWidth
    ∧ decodeTableWord 8 0x61 = some (.cmdReadRxPayload 0) ∧ decodeTableWord 8 0x40 = none := by decide

/-- The word placed for the next step is fetched and run: before begin READ_REGISTER faults with ordinal 3 (V-X1). -/
theorem test_withFetchWord : step (State.reset.withFetchWord 8 3) = .fault (.notBound 3) := rfl

/-- Command bytes out of the 5-bit range (V-E4 to V-E11; 20_memory R58). -/
theorem test_command_bytes : cmdR 0x20 = 0x20 ∧ cmdW 0x20 = 0x20 ∧ cmdW 0x40 = 0x60 ∧ cmdW 0x41 = 0x61 ∧ cmdW 0x42 = 0x62
    ∧ cmdW 0x60 = 0x60 ∧ cmdW 0x80 = 0xA0 ∧ cmdW 0xFF = 0xFF := by decide

/-! ### Transport (V-T) -/

/-- V-T1 and V-T2: values and the number of fixed points. -/
theorem test_rev8 : rev8 0x0F = 0xF0 ∧ rev8 0x28 = 0x14 ∧ rev8 0x13 = 0xC8 ∧ rev8 0x93 = 0xC9 ∧ rev8 0xC6 = 0x63
    ∧ ((List.range 256).filter fun n => rev8 (BitVec.ofNat 8 n) == BitVec.ofNat 8 n).length = 16 := by decide

/-- V-T3: the samples 1,1,0,0,1,0,1,0 make 0xCA; MOSI carries 1,0,1,0,0,1,1,1. -/
theorem test_transfer : (transfer 1 0xA7 (held [0xCA])).1 = 0xCA
    ∧ mosiLevels (transfer 1 0xA7 (held [0xCA])).2.trace = [true, false, true, false, false, true, true, true] := by
  decide

/-- V-T7: the seven events of cell 0 of a transfer of 0x80. -/
theorem test_transfer_cell : (transfer 5 0x80 (held [0x80])).2.trace.take 7
    = [.set .mosi true, .wait 5, .set .sck true, .get .miso true, .wait 5, .set .sck false, .wait 5] := by decide

/-- V-T6, in the machine: a loopback returns the byte. -/
theorem test_xfer : lastAfter (exec (.xfer 0x5A) (held [0x5A])) = some (.result (.byte 0x5A)) := by decide

/-- V-T13. -/
theorem test_xfer_unframed : exec (.xfer 0x55) (ready []) = .refused .unframed := rfl

/-- V-T11: an unlisted command is sent as given. -/
theorem test_wcmd : framesAfter (exec (.wcmd 0x99 [0x01]) (ready [0, 0])) = some [[0x99, 0x01]] := by decide +kernel

/-- V-T10: an empty payload leaves 58 events. -/
theorem test_wcmd_empty : (nextState? (exec (.wcmd 0x25 []) (ready [0]))).map (fun t => t.trace.length) = some 58 := by
  decide

/-! ### Register access (V-R) -/

/-- V-R6. -/
theorem test_rregn : lastAfter (exec (.rregn 0x10 2) (ready [0, 0xA7, 0x93])) = some (.result (.bytes [0xA7, 0x93])) := by
  decide +kernel

/-- V-R2. -/
theorem test_rreg : lastAfter (exec (.rreg 0x05) (ready [0, 0x28])) = some (.result (.byte 0x28)) := by decide +kernel

/-- V-R10: a read of 0x25 goes out as a write of register 0x05. -/
theorem test_rreg_alias : framesAfter (exec (.rreg 0x25) (ready [0, 0])) = some [[0x25, 0x00]] := by decide +kernel

/-- V-R7. -/
theorem test_wregn : framesAfter (exec (.wregn 0x10 [0x01, 0x02] 1) (ready [0, 0])) = some [[0x30, 0x01]] := by decide +kernel

/-- V-R8. -/
theorem test_wregn_short : exec (.wregn 0x10 [0x01] 2) (ready []) = .refused .shortBuffer := rfl

/-- V-R1. -/
theorem test_wreg : framesAfter (exec (.wreg 0x05 0x28) (ready [0, 0])) = some [[0x25, 0x28]] := by decide +kernel

/-- V-R11: the address 0x40 is not masked. -/
theorem test_wreg_alias : framesAfter (exec (.wreg 0x40 0x03) (ready [0, 7])) = some [[0x60, 0x03]] := by decide +kernel

/-- V-R3a. -/
theorem test_setb : framesAfter (exec (.setb 0x00 1) (ready [0, 0x08, 0, 0])) = some [[0x00, 0x00], [0x20, 0x0A]] := by
  decide +kernel

/-- V-R5. -/
theorem test_setb_index : exec (.setb 0x00 8) (ready []) = .refused .bitIndex := rfl

/-- V-R3d. -/
theorem test_clrb : framesAfter (exec (.clrb 0x00 7) (ready [0, 0xFF, 0, 0])) = some [[0x00, 0x00], [0x20, 0x7F]] := by
  decide +kernel

/-- V-R3f: the write still happens. -/
theorem test_clrb_same : framesAfter (exec (.clrb 0x00 4) (ready [0, 0x0E, 0, 0])) = some [[0x00, 0x00], [0x20, 0x0E]] := by
  decide +kernel

/-- V-R4a and V-R4b. -/
theorem test_rbit : lastAfter (exec (.rbit 0x07 6) (ready [0, 0x40])) = some (.result (.bit true))
    ∧ lastAfter (exec (.rbit 0x07 5) (ready [0, 0x40])) = some (.result (.bit false)) := by decide +kernel

/-- V-R13. -/
theorem test_rplw : framesAfter (exec .rplw (ready [0, 3])) = some [[0x60, 0x00]]
    ∧ lastAfter (exec .rplw (ready [0, 3])) = some (.result (.byte 3)) := by decide +kernel

/-- V-R14. -/
theorem test_rpl : lastAfter (exec (.rpl 3) (ready [0, 0x11, 0x22, 0x33])) = some (.result (.bytes [0x11, 0x22, 0x33])) := by
  decide +kernel

/-! ### Radio control (V-C), on the example binding -/

/-- V-C1a. -/
theorem test_pwrup : framesOf (powerUp exampleBinding (ready [0, 0x08, 0, 0])).trace = [[0x00, 0x00], [0x20, 0x0A]] := by
  decide +kernel

/-- V-C1b: chip-enable is not touched. -/
theorem test_pwrdn : framesOf (shutDown exampleBinding (ready [0, 0x0A, 0, 0])).trace = [[0x00, 0x00], [0x20, 0x08]]
    ∧ (shutDown exampleBinding (ready [0, 0x0A, 0, 0])).ce = true := by decide +kernel

/-- V-C2. -/
theorem test_rxmode : framesOf (setModeRX exampleBinding (ready [0, 0x0A, 0, 0])).trace = [[0x00, 0x00], [0x20, 0x0B]]
    ∧ (setModeRX exampleBinding (ready [0, 0x0A, 0, 0])).trace.head? = some (.set .ce false)
    ∧ (setModeRX exampleBinding (ready [0, 0x0A, 0, 0])).trace.getLast? = some (.set .ce true)
    ∧ (setModeRX exampleBinding (ready [0, 0x0A, 0, 0])).trace.length = 230 := by decide +kernel

/-- V-C3b: no range check. -/
theorem test_ch : framesOf (setCh exampleBinding 0xFF (ready [0, 0])).trace = [[0x25, 0xFF]] := by decide +kernel

/-- V-C4a to V-C4c. -/
theorem test_dr_oneRmw : framesOf (setDataRate exampleBinding .dr250K (ready [0, 0x07, 0, 0])).trace
      = [[0x06, 0x00], [0x26, 0x2F]]
    ∧ framesOf (setDataRate exampleBinding .dr1M (ready [0, 0x2F, 0, 0])).trace = [[0x06, 0x00], [0x26, 0x07]]
    ∧ framesOf (setDataRate exampleBinding .dr2M (ready [0, 0x2F, 0, 0])).trace = [[0x06, 0x00], [0x26, 0x0F]] := by
  decide +kernel

/-- V-C4d and V-C4e. -/
theorem test_dr_twoRmw :
    framesOf (setDataRate (formed .rmwHiFirst .oneRead .clearByWrite) .dr250K (ready [0, 0x07, 0, 0, 0, 0x27, 0, 0])).trace
      = [[0x06, 0x00], [0x26, 0x27], [0x06, 0x00], [0x26, 0x2F]]
    ∧ framesOf (setDataRate (formed .rmwLoFirst .oneRead .clearByWrite) .dr1M (ready [0, 0x2F, 0, 0, 0, 0x27, 0, 0])).trace
      = [[0x06, 0x00], [0x26, 0x27], [0x06, 0x00], [0x26, 0x07]] := by
  rw [setDataRate_eq, setDataRate_eq]
  decide +kernel

/-- V-C5: the unreachable pair of 0x27 reads as 2 Mbps. -/
theorem test_gdr_oneRead : (getDataRate exampleBinding (ready [0, 0x07])).1 = .dr1M
    ∧ (getDataRate exampleBinding (ready [0, 0x0F])).1 = .dr2M
    ∧ (getDataRate exampleBinding (ready [0, 0x2F])).1 = .dr250K
    ∧ (getDataRate exampleBinding (ready [0, 0x27])).1 = .dr2M
    ∧ (getDataRate exampleBinding (ready [0, 0xD7])).1 = .dr1M := by decide

/-- V-C6, and the two frames in the other order: bits of different frames. -/
theorem test_gdr_readbit :
    (getDataRate (formed .oneRmw .readbitHiFirst .clearByWrite) (ready [0, 0x2F, 0, 0x2F])).1 = .dr250K
    ∧ (getDataRate (formed .oneRmw .readbitHiFirst .clearByWrite) (ready [0, 0x07, 0, 0x2F])).1 = .dr2M
    ∧ (getDataRate (formed .oneRmw .readbitLoFirst .clearByWrite) (ready [0, 0x07, 0, 0x2F])).1 = .dr2M
    ∧ framesOf (getDataRate (formed .oneRmw .readbitLoFirst .clearByWrite) (ready [0, 0x2F, 0, 0x2F])).2.trace
      = [[0x06, 0x00], [0x06, 0x00]] := by decide +kernel

/-- V-C8a and V-C8b. -/
theorem test_crc : framesOf (setCRCSize exampleBinding 0 (ready [0, 0x0A, 0, 0])).trace = [[0x00, 0x00], [0x20, 0x02]]
    ∧ framesOf (setCRCSize exampleBinding 2 (ready [0, 0x02, 0, 0])).trace = [[0x00, 0x00], [0x20, 0x0A]] := by decide +kernel

/-- V-C8c and V-C8d. -/
theorem test_crc_corners : framesAfter (exec (.crc 1) (ready [])) = some []
    ∧ exec (.crc 3) (ready []) = .refused .crcSize ∧ exec (.crc 255) (ready []) = .refused .crcSize :=
  ⟨by decide, rfl, rfl⟩

/-- V-C9a. -/
theorem test_dynackOn : framesOf (enableDynAck exampleBinding (ready [0, 0x00, 0, 0])).trace = [[0x1D, 0x00], [0x3D, 0x01]] := by
  decide +kernel

/-- V-C9b. -/
theorem test_dynackOff : framesOf (disableDynAck exampleBinding (ready [0, 0x05, 0, 0])).trace = [[0x1D, 0x00], [0x3D, 0x04]] := by
  decide +kernel

/-- V-C10: pipes 8, 11 and 255. -/
theorem test_plw : framesOf (setRxPayloadWidth exampleBinding 8 0x20 (ready [0, 0])).trace = [[0x33, 0x20]]
    ∧ framesOf (setRxPayloadWidth exampleBinding 11 0x20 (ready [0, 0])).trace = [[0x36, 0x20]]
    ∧ framesOf (setRxPayloadWidth exampleBinding 255 0x20 (ready [0, 0])).trace = [[0x34, 0x20]] := by decide +kernel

/-! ### Receive (V-P) -/

/-- V-X2: accepted before begin, with no event. -/
theorem test_onrx : (nextState? (exec (.onrx (some 9)) State.reset)).map (fun t => (t.rxHandler, t.trace)) = some (some 9, []) := by
  decide

/-- V-P1: the bit clear, one read frame. -/
theorem test_poll_clear : framesAfter (poll exampleBinding (listening [0, 0x0E])) = some [[0x07, 0x00]] := by decide +kernel

/-- V-P2, first part: NOTIFY after the read frame, and the block not busy in the window. -/
theorem test_poll_notify : lastAfter (poll exampleBinding (listening [0, 0x4E])) = some (.notify 9)
    ∧ (nextState? (poll exampleBinding (listening [0, 0x4E]))).map (fun t => (t.busy, t.windows)) = some (false, [115]) := by
  decide +kernel

/-- V-P2 and V-P4, last part: the clear in both forms. -/
theorem test_poll_return : framesAfter (resumePoll exampleBinding (inWindow [0, 0])) = some [[0x27, 0x40]]
    ∧ framesAfter (resumePoll (formed .oneRmw .oneRead .clearBySetbit) (inWindow [0, 0x4E, 0, 0]))
      = some [[0x07, 0x00], [0x27, 0x4E]] := by decide +kernel

/-- V-P3 and V-P5: no handler, the clear at once. -/
theorem test_poll_noHandler : framesAfter (poll exampleBinding (ready [0, 0xFF, 0, 0])) = some [[0x07, 0x00], [0x27, 0x40]] := by
  decide +kernel

/-! ### Begin (V-B) -/

/-- V-B1. -/
theorem test_pinInit : (pinInit State.reset).trace
    = [.set .csn true, .dir .csn .output, .set .sck false, .dir .sck .output, .set .mosi false, .dir .mosi .output,
       .set .ce false, .dir .ce .output, .dir .miso .input, .dir .irq .input] := by decide

/-- V-B1 on the host's side (00_scope R11): the ten calls, on six distinct handles. -/
theorem test_pinInit_calls : hostCalls (pinInit { State.reset with pins := some ⟨10, 11, 12, 13, 14, 15⟩ })
    = [.writeLevel 13 true, .setDirection 13 .output, .writeLevel 10 false, .setDirection 10 .output,
       .writeLevel 12 false, .setDirection 12 .output, .writeLevel 14 false, .setDirection 14 .output,
       .setDirection 11 .input, .setDirection 15 .input] := by decide

/-- 00_scope R11 and 40_transport R83: the calls of one bit cell that sends a 1 and samples a 0, on the handles of S0. -/
theorem test_cell_calls : hostCalls (bitCell 1 { held [0x00] with tx := 0x01 })
    = [.writeLevel 2 true, .sleep 1, .writeLevel 0 true, .readLevel 1 false, .sleep 1, .writeLevel 0 false, .sleep 1] := by
  decide

/-- V-B4 and P4: the last step and chip-enable high, on the recipe's last step alone. -/
theorem test_recipe_last :
    framesOf (performStep exampleBinding (.setBit 0x00 0) (ready [0, 0x02, 0, 0])).trace = [[0x00, 0x00], [0x20, 0x03]] := by
  decide +kernel

/-- 70_reset_and_hazards R153, R154: S7, one write frame of one byte, may be any operation that is one; a read-modify-write is
none. -/
theorem test_recipe_s7 : ({ exampleBinding with recipe := exampleBinding.recipe.set 6 (.setCh 0x02) } : Params).wf = true
    ∧ ({ exampleBinding with recipe := exampleBinding.recipe.set 6 (.setRxPayloadWidth 0 0x20) } : Params).wf = true
    ∧ ({ exampleBinding with recipe := exampleBinding.recipe.set 6 (.setBit 0x0D 0) } : Params).wf = false := by decide +kernel

/-! ### Wire commands (30_encoding R62 to R67) -/

theorem test_cmdReadRegister : framesAfter (exec (.cmdReadRegister 0x1F 1) (ready [0, 0])) = some [[0x1F, 0x00]] := by decide +kernel

theorem test_cmdWriteRegister : framesAfter (exec (.cmdWriteRegister 0x1F [0x4C]) (ready [0, 0])) = some [[0x3F, 0x4C]] := by
  decide +kernel

theorem test_cmdReadRxPayloadWidth : framesAfter (exec .cmdReadRxPayloadWidth (ready [0, 3])) = some [[0x60, 0x00]] := by decide +kernel

theorem test_cmdReadRxPayload : framesAfter (exec (.cmdReadRxPayload 2) (ready [0, 1, 2])) = some [[0x61, 0x00, 0x00]] := by
  decide +kernel

/-! ### Faults and refusals (V-X) -/

/-- V-X1 and V-X3: the fault comes before the argument's refusal. -/
theorem test_notBound : exec (.rreg 0x05) State.reset = .fault (.notBound 3)
    ∧ exec (.setb 0x00 9) State.reset = .fault (.notBound 6) := ⟨rfl, rfl⟩

/-- V-X4 and V-X5. -/
theorem test_begin_refused : exec (.beginPins none) (ready []) = .refused .rebegin
    ∧ exec (.beginPins (some ⟨0, 1, 2, 3, 4, 4⟩)) State.reset = .refused .pinAlias := ⟨rfl, rfl⟩

/-- V-X6. -/
theorem test_concurrent : step (ready [] [.overlap [22]]) = .refused .concurrent := rfl

/-- 60_exceptions R147 item 1: bytes that are no request are refused first. -/
theorem test_unknown : step { State.reset with busy := true, inbox := [.request [99]] } = .refused (.unknown (.unknownOrdinal 99)) :=
  rfl

/-- A handler's return with no window open (log entry 12). -/
theorem test_noWindow : step (ready [] [.handlerReturn]) = .refused .noOpenWindow := rfl

/-- The idle step (60_exceptions R150). -/
theorem test_idle : step State.reset = .next State.reset := rfl

/-! ### Witnesses: states and operands that meet the hypotheses of the statements -/

/-- DecodedBytesAreTheEncoding. -/
theorem witness_DecodedBytesAreTheEncoding : decode .hostop [15, 2] = .ok (.dr .dr250K) := by decide

/-- CommandByteForms: the top of the address range. -/
theorem witness_CommandByteForms : (0x1F : Byte).toNat < 32 ∧ cmdR 0x1F = 0x1F ∧ cmdW 0x1F = 0x3F := by decide

/-- BusMonitorDecoding: one byte for each clause, at a boundary. -/
theorem witness_BusMonitorDecoding : (0x1F : Byte).extractLsb' 5 3 = 0b000#3 ∧ (0x3F : Byte).extractLsb' 5 3 = 0b001#3
    ∧ ((0x62 : Byte).extractLsb' 5 3 ≠ 0b000#3 ∧ (0x62 : Byte).extractLsb' 5 3 ≠ 0b001#3 ∧ (0x62 : Byte) ≠ 0x60
      ∧ (0x62 : Byte) ≠ 0x61)
    ∧ commandForm 0x61 ≠ .unlisted := by decide

/-- TransferLaws: a slave that echoes 0xA7, and two states with the same eight samples. -/
theorem witness_TransferLaws : (∀ k : Nat, k < 8 → sample (held [0xA7]) k = (0xA7 : Byte).getLsbD (7 - k))
    ∧ ∀ k : Nat, k < 8 → sample (ready [0xA7, 0x01]) k = sample (held [0xA7]) k := by decide

/-- TransferRequest, one block for each clause: the request completes where chip-select is low. -/
theorem witness_TransferRequest : Ready (ready []) ∧ (ready []).csn = true ∧ Ready (held [0xA7]) ∧ (held [0xA7]).csn = false
    ∧ ∃ t, exec (.xfer 0xA7) (held [0xA7]) = .next t :=
  ⟨⟨rfl, rfl⟩, rfl, ⟨rfl, rfl⟩, rfl, ⟨_, rfl⟩⟩

/-- The premise `Ready s` of WriteCommandFrame, WireCommandFrames, ReadRegisterNResult, ReadRegisterResult,
WriteRegisterFrame, PayloadReadResults, PseudoOperationPairs, PowerBitCommands, SetModeRxSequence, SetChannelFrame,
SetDataRateForms, GetDataRateForms, DynAckCommands, PayloadWidthPipeModulo, PollCases, WellFormedNeverStops and
PassiveRegisterLaws. -/
theorem witness_Ready : Ready (ready [0, 0x28]) := ⟨rfl, rfl⟩

/-- WireCommandFrames, second part: a wire command on an unbound, idle block. -/
theorem witness_WireCommandFrames : (Instr.cmdReadRegister 0x05 1).format = .cmd8 ∧ State.reset.busy = false
    ∧ State.reset.bound = false := by decide

/-- WriteRegisterNFrame: a length at the buffer's, and one above it. -/
theorem witness_WriteRegisterNFrame : Ready (ready []) ∧ 2 ≤ [(1 : Byte), 2].length ∧ [(1 : Byte), 2].length < 3 :=
  ⟨⟨rfl, rfl⟩, by decide, by decide⟩

/-- SetClearBitTwoFrames, ReadBitResult, EventCounts and MinimumTimes: the highest bit index, and for EventCounts a length at the
buffer's. -/
theorem witness_bitIndex : Ready (ready []) ∧ (7 : Byte).toNat ≤ 7 ∧ 1 ≤ [(1 : Byte)].length :=
  ⟨⟨rfl, rfl⟩, by decide, by decide⟩

/-- MinimumTimes: one transfer of the highest byte takes 24 settle delays (70_reset_and_hazards R169), 24 µs at 1 µs. -/
theorem test_minTime_transfer : minTime (newEvents (held [0xFF]) (transfer 1 0xFF (held [0xFF])).2) = 24 := by decide +kernel

/-- SetCrcSizeCases: the four sizes at the clauses' borders. -/
theorem witness_SetCrcSizeCases : Ready (ready []) ∧ (0 : Byte) = 0 ∧ (1 : Byte) = 1 ∧ (2 : Byte) = 2 ∧ 2 < (3 : Byte).toNat :=
  ⟨⟨rfl, rfl⟩, rfl, rfl, rfl, by decide⟩

/-- SetDataRateForms: one rate for each clause, and a bit that is none of the field's. -/
theorem witness_SetDataRateForms : Ready (ready []) ∧ rateCode .dr1M = (false, false) ∧ rateCode .dr2M = (false, true)
    ∧ rateCode .dr250K = (true, true) ∧ ∃ j : BitPos, j ≠ Config.params.bitDrHi ∧ j ≠ Config.params.bitDrLo := by
  refine ⟨⟨rfl, rfl⟩, rfl, rfl, rfl, ?_⟩
  generalize Config.params.bitDrHi = i
  generalize Config.params.bitDrLo = k
  revert i k
  decide

/-- HandlerRegistration. -/
theorem witness_HandlerRegistration : State.reset.busy = false := rfl

/-- PollCases: whichever bit the data-ready bit is, a status of ones has it and a status of zeros has it not. -/
theorem witness_PollCases :
    (sampledByte (listening [0xFF, 0xFF]) 8).getLsbD Config.params.bitRxReady = true
    ∧ (sampledByte (ready [0, 0]) 8).getLsbD Config.params.bitRxReady = false := by
  have h1 : sampledByte (listening [0xFF, 0xFF]) 8 = 0xFF := by decide
  have h0 : sampledByte (ready [0, 0]) 8 = 0 := by decide
  rw [h1, h0]
  generalize Config.params.bitRxReady = i
  revert i
  decide

/-- HandlerReturnClears: an open window; ClearWritesOne: both forms of the clear. -/
theorem witness_HandlerReturnClears :
    (inWindow [] [.handlerReturn]).inbox = .handlerReturn :: [] ∧ (inWindow [] [.handlerReturn]).busy = false
    ∧ (inWindow [] [.handlerReturn]).windows = 115 :: []
    ∧ (formed .oneRmw .oneRead .clearByWrite).pollClearForm = .clearByWrite
    ∧ (formed .oneRmw .oneRead .clearBySetbit).pollClearForm = .clearBySetbit := by decide

/-- NotifyWindowAdmits: a poll that ends at NOTIFY. -/
theorem witness_NotifyWindowAdmits : Ready (listening [0xFF, 0xFF])
    ∧ ∃ t, exec .poll (listening [0xFF, 0xFF]) = .next t ∧ t.windows ≠ (listening [0xFF, 0xFF]).windows := by
  have hs : sampledByte (enter (listening [0xFF, 0xFF])) 8 = 0xFF := by decide
  have hb : testBitIn 0xFF Config.params.bitRxReady = true := by
    generalize Config.params.bitRxReady = i
    revert i
    decide
  refine ⟨⟨rfl, rfl⟩, openWindow 9 (afterRead Config.params.tSettle (cmdR (regByte Config.params.regStatus)) 1
    (enter (listening [0xFF, 0xFF]))), ?_, by simp [openWindow, record, listening, ready, State.reset]⟩
  rw [exec, execPoll, whenReady_of_ready ⟨rfl, rfl⟩, poll, readBit_eq]
  simp only [hs, hb]
  rfl

/-- BeginSequence, BeginEvents, StateAfterBegin, BeginFixedFrames: BEGIN completes on the reset state, with and without given
pins. -/
theorem witness_BeginSequence : State.reset.busy = false ∧ State.reset.bound = false
    ∧ (⟨0, 1, 2, 3, 4, 5⟩ : Pins).distinct = true
    ∧ (∃ t, exec (.beginPins (some ⟨0, 1, 2, 3, 4, 5⟩)) State.reset = .next t)
    ∧ ∃ t, exec (.beginPins none) State.reset = .next t :=
  ⟨rfl, rfl, by decide, ⟨_, rfl⟩, ⟨_, rfl⟩⟩

/-- NotBoundFault: an ordinal of each clause. -/
theorem witness_NotBoundFault : (Instr.rreg 0x05).ordinal? = some 3 ∧ (Instr.onrx none).ordinal? = some 21
    ∧ (Instr.beginPins none).ordinal? = some 23 ∧ State.reset.busy = false ∧ State.reset.bound = false := by decide

/-- ConcurrentRefused. -/
theorem witness_ConcurrentRefused : (interrupted (ready [])).busy = true
    ∧ (ready [] [.overlap [17, 3]]).inbox = .overlap [17, 3] :: [] ∧ decode .hostop [17, 3] = .ok (.crc 3) := by decide

/-- ArgumentRefusals: an argument at the border of each clause. -/
theorem witness_ArgumentRefusals : (ready []).busy = false ∧ (ready []).bound = true ∧ 7 < (8 : Byte).toNat
    ∧ 2 < (3 : Byte).toNat ∧ [(1 : Byte)].length < 2 ∧ State.reset.busy = false ∧ State.reset.bound = false
    ∧ (⟨0, 1, 2, 3, 4, 4⟩ : Pins).distinct = false := by decide

/-- UnknownRefused: a request, a second context's request and a command that are none. -/
theorem witness_UnknownRefused : (ready [] [.request [24]]).inbox = .request [24] :: []
    ∧ (ready [] [.overlap [24]]).inbox = .overlap [24] :: [] ∧ decode .hostop [24] = .error (.unknownOrdinal 24)
    ∧ (ready [] [.command [0x40]]).inbox = .command [0x40] :: []
    ∧ decode .cmd8 [0x40] = .error (.unlistedCommand 0x40) := by decide

/-- WellFormedNeverStops. -/
theorem witness_WellFormedNeverStops : Ready (ready []) ∧ (Instr.setb 0x00 7).wellFormed = true
    ∧ (∀ out, Instr.setb 0x00 7 ≠ .xfer out) ∧ ∀ p, Instr.setb 0x00 7 ≠ .beginPins p :=
  ⟨⟨rfl, rfl⟩, by decide, nofun, nofun⟩

/-- FaultIsFinal: a poll before begin, with a BEGIN behind it that is never performed. -/
theorem witness_FaultIsFinal : decode .hostop [22] = .ok .poll ∧ Instr.poll.ordinal? = some 22
    ∧ core.run 2 { State.reset with inbox := [.request [22], .request [23, 0]] } = .fault (Fault.notBound 22) :=
  ⟨by decide, rfl, rfl⟩

/-- StepRunsDecoded: an item of each kind, and none. -/
theorem witness_StepRunsDecoded : (ready [] [.request [9]]).inbox = .request [9] :: [] ∧ decode .hostop [9] = .ok .rplw
    ∧ (ready [] [.command [0x60]]).inbox = .command [0x60] :: [] ∧ decode .cmd8 [0x60] = .ok .cmdReadRxPayloadWidth
    ∧ (ready [] [.overlap [9]]).inbox = .overlap [9] :: [] ∧ (ready []).inbox = [] := by decide

/-- StepKeepsRest, StepKeepsBusClean, StepKeepsLatchesTrue: the reset state meets all three, and BEGIN is a step from it. -/
theorem witness_StepKeeps : AtRest { State.reset with inbox := [.request [23, 0]] }
    ∧ CleanBus { State.reset with inbox := [.request [23, 0]] }
    ∧ LatchesTrue { State.reset with inbox := [.request [23, 0]] }
    ∧ ∃ t, step { State.reset with inbox := [.request [23, 0]] } = .next t :=
  ⟨⟨rfl, by decide, fun _ => ⟨rfl, rfl, rfl⟩, nofun⟩, nofun, nofun, ⟨_, rfl⟩⟩

/-- A bound block that meets the same three invariants, and a step of it: pin initialisation done, chip-enable low. -/
theorem witness_StepKeeps_bound :
    let s := { ready [0, 0] [.request [9]] with ce := false, trace := pinInitEvents }
    AtRest s ∧ CleanBus s ∧ LatchesTrue s ∧ ∃ t, step s = .next t := by
  refine ⟨⟨rfl, by decide, nofun, fun _ => ⟨rfl, rfl, rfl, _, rfl, by decide⟩⟩, fun _ => ⟨[], rfl, rfl⟩, fun _ p => ?_,
    ⟨_, rfl⟩⟩
  cases p <;> decide

/-- BindingIsForGood and IrqNeverRead: a step of a bound block. -/
theorem witness_BindingIsForGood : (ready [0, 0] [.request [9]]).bound = true
    ∧ ∃ t, step (ready [0, 0] [.request [9]]) = .next t := ⟨rfl, ⟨_, rfl⟩⟩

/-- InstructionFrame, EventIndexCounts, NoWaitBetweenFrames and HostCallsOnBoundPins (its second clause; for a step and a
handler's return witness_HostCalls, for its last clause witness_BeginSequence): an instruction that completes on a bound
block with chip-select high. -/
theorem witness_InstructionFrame : (∀ p, Instr.gdr ≠ .beginPins p) ∧ (ready []).csn = true ∧ (ready []).bound = true
    ∧ (ready []).pins = some ⟨0, 1, 2, 3, 4, 5⟩ ∧ ∃ t, exec .gdr (ready []) = .next t :=
  ⟨nofun, rfl, rfl, rfl, ⟨_, rfl⟩⟩

/-- HostCallsOnBoundPins: a step and a handler's return of a bound block. -/
theorem witness_HostCalls : (ready [0, 0] [.request [9]]).pins = some ⟨0, 1, 2, 3, 4, 5⟩
    ∧ (∃ t, step (ready [0, 0] [.request [9]]) = .next t)
    ∧ (inWindow []).pins = some ⟨0, 1, 2, 3, 4, 5⟩ ∧ (inWindow []).bound = true
    ∧ ∃ t, returnFromHandler (inWindow []) = .next t := ⟨rfl, ⟨_, rfl⟩, rfl, rfl, ⟨_, rfl⟩⟩

/-- ChipEnableWriters and HandlerSlotUse: each of the operations named completes somewhere. -/
theorem witness_ChipEnableWriters : (∃ t, exec .rxmode (ready []) = .next t)
    ∧ (∃ t, returnFromHandler (inWindow []) = .next t) ∧ (∃ t, exec (.beginPins none) State.reset = .next t)
    ∧ ∃ t, exec .pwrdn (ready []) = .next t := by
  refine ⟨⟨_, rfl⟩, ⟨_, rfl⟩, ⟨_, rfl⟩, ⟨_, rfl⟩⟩

/-- FramesIgnoreSamples: two slaves, one block. -/
theorem witness_FramesIgnoreSamples : SameBlock (ready [0, 0]) (ready [0xFF, 0xFF])
    ∧ (∃ t, exec .gdr (ready [0, 0]) = .next t) ∧ ∃ t, exec .gdr (ready [0xFF, 0xFF]) = .next t :=
  ⟨rfl, ⟨_, rfl⟩, ⟨_, rfl⟩⟩

/-- A register file with one register written. -/
def file : PassiveFile := { regs := [(0x05, [0x08])], rxWidth := 0, rxPayload := [] }

/-- PassiveRegisterLaws: a slave that behaves as F1 while a write and a read pass, and while a read-modify-write and a read
pass. -/
theorem witness_PassiveRegisterLaws :
    DrivesPassive file (ready [0, 0, 0, 0x4C]) [[0x25, 0x4C], [0x05, 0x00]]
    ∧ DrivesPassive file (ready [0, 0x08, 0, 0, 0, 0x0A]) [[0x05, 0x00], [0x25, 0x0A], [0x05, 0x00]]
    ∧ DrivesPassive file (ready [0, 0x08, 0, 0, 0, 0x00]) [[0x05, 0x00], [0x25, 0x00], [0x05, 0x00]] := by
  unfold DrivesPassive
  decide

/-- DataRateRoundTrip: F1 under 250 kbps, in a form with one read-modify-write and one read. -/
theorem witness_DataRateRoundTrip : exampleBinding.bitDrHi ≠ exampleBinding.bitDrLo
    ∧ DrivesPassive { file with regs := [(0x06, [0x07])] } (ready [0, 0x07, 0, 0, 0, 0x2F])
        (framesOf (newEvents (ready [0, 0x07, 0, 0, 0, 0x2F])
          (getDataRate exampleBinding (setDataRate exampleBinding .dr250K (ready [0, 0x07, 0, 0, 0, 0x2F]))).2)) := by
  have h : framesOf (newEvents (ready [0, 0x07, 0, 0, 0, 0x2F])
      (getDataRate exampleBinding (setDataRate exampleBinding .dr250K (ready [0, 0x07, 0, 0, 0, 0x2F]))).2)
      = [[0x06, 0x00], [0x26, 0x2F], [0x06, 0x00]] := by decide +kernel
  rw [h]
  unfold DrivesPassive
  decide

/-- The frames of a data-rate round trip to 250 kbps with two read-modify-writes and two reads. -/
theorem frames_twoRmw (answers : List Byte) :
    let P := formed .rmwHiFirst .readbitHiFirst .clearByWrite
    let s := ready answers
    let s1 := afterRmw P.tSettle 0x06 (fun v => putBitIn v 5 true) s
    framesOf (newEvents s (getDataRate P (setDataRate P .dr250K s)).2)
      = [[0x06, 0], [0x26, putBitIn (sampledByte s 8) 5 true], [0x06, 0], [0x26, putBitIn (sampledByte s1 8) 3 true],
         [0x06, 0], [0x06, 0]] := by
  intro P s s1
  obtain ⟨e1, r1, f1, _⟩ := ran_rmw P.tSettle 0x06 (fun v => putBitIn v 5 true) s
  obtain ⟨e2, r2, f2, _⟩ := ran_rmw P.tSettle 0x06 (fun v => putBitIn v 3 true) s1
  have r3 := ran_frame P.tSettle 0x06 [0] (afterRmw P.tSettle 0x06 (fun v => putBitIn v 3 true) s1)
  have r4 := ran_frame P.tSettle 0x06 [0]
    (afterFrame P.tSettle 0x06 [0] (afterRmw P.tSettle 0x06 (fun v => putBitIn v 3 true) s1))
  have r := ((r1.trans r2).trans r3).trans r4
  have e : (getDataRate P (setDataRate P .dr250K s)).2
      = afterFrame P.tSettle 0x06 [0]
          (afterFrame P.tSettle 0x06 [0] (afterRmw P.tSettle 0x06 (fun v => putBitIn v 3 true) s1)) := by
    rw [setDataRate_eq, getDataRate_eq]; rfl
  rw [e, r.newEvents, ((r1.trans r2).trans r3).framesOf_append, (r1.trans r2).framesOf_append, r1.framesOf_append, f1, f2,
    framesOf_frame, framesOf_frame]
  rfl

/-- DataRateRoundTrip: F1 under 250 kbps, in a form with two read-modify-writes and two reads. -/
theorem witness_DataRateRoundTrip_two :
    let P := formed .rmwHiFirst .readbitHiFirst .clearByWrite
    let s := ready [0, 0x07, 0, 0, 0, 0x27, 0, 0, 0, 0x2F, 0, 0x2F]
    P.bitDrHi ≠ P.bitDrLo ∧ DrivesPassive { file with regs := [(0x06, [0x07])] } s
      (framesOf (newEvents s (getDataRate P (setDataRate P .dr250K s)).2)) := by
  intro P s
  refine ⟨by decide, ?_⟩
  rw [show _ = _ from frames_twoRmw _]
  unfold DrivesPassive
  decide +kernel

end Sys2Proof.Tests
end

section
/-! PROOFS. What a step runs (`step_run`, `step_overlapping`, `step_idle`), and the block's calls on its host: every operation
of a bound block keeps the binding and only adds events (`Continues`), so the calls it adds are those of its own events. -/

namespace Sys2Proof.Proofs

open Sys2Proof.Machine Sys2Proof.Safety Sys2Proof.Laws

/-! ### The step, by what the item in front is -/

theorem fetch_request {bs : List Byte} {i : Instr} (h : decode .hostop bs = .ok i) : fetch (.request bs) = .run i := by
  simp [fetch, h]

theorem fetch_command {bs : List Byte} {i : Instr} (h : decode .cmd8 bs = .ok i) : fetch (.command bs) = .run i := by
  simp [fetch, h]

theorem fetch_overlap {bs : List Byte} {i : Instr} (h : decode .hostop bs = .ok i) :
    fetch (.overlap bs) = .overlapping i := by
  simp [fetch, h]

theorem step_idle {s : State} (hs : s.inbox = []) : step s = .next s := by
  simp [step, hs]

theorem step_run {s : State} {x : HostInput} {rest : List HostInput} {i : Instr} (hs : s.inbox = x :: rest)
    (hx : fetch x = .run i) : step s = exec i { s with inbox := rest } := by
  simp [step, hs, hx]

theorem step_overlapping {s : State} {x : HostInput} {rest : List HostInput} {i : Instr} (hs : s.inbox = x :: rest)
    (hx : fetch x = .overlapping i) : step s = exec i { s with inbox := rest, busy := true } := by
  simp [step, hs, hx, interrupted]

/-- Settles O42: each kind of item is fetched as its instruction, and the step is the meaning of what was fetched. -/
theorem stepRunsDecoded : Obligations.StepRunsDecoded := fun _ _ _ _ =>
  ⟨fun hs hd => step_run hs (fetch_request hd), fun hs hd => step_run hs (fetch_command hd),
    fun hs hd => step_overlapping hs (fetch_overlap hd), step_idle⟩

/-! ### A bound block keeps its pins and only adds events -/

/-- `t` has the pins of `s`, and its trace begins with that of `s`. -/
structure Continues (s t : State) : Prop where
  pins : t.pins = s.pins
  trace : s.trace <+: t.trace

theorem Continues.refl (s : State) : Continues s s := ⟨rfl, List.prefix_rfl⟩

/-- Taking an item from the inbox touches neither the pins nor the trace. -/
theorem Continues.of_inbox {s t : State} {rest : List HostInput} (h : Continues { s with inbox := rest } t) :
    Continues s t := ⟨h.pins, h.trace⟩

theorem exec_continues {i : Instr} {s t : State} (hb : s.bound = true) (h : exec i s = .next t) : Continues s t := by
  by_cases hx : ∃ out, i = .xfer out
  · obtain ⟨out, rfl⟩ := hx
    obtain ⟨-, -, -, rfl⟩ := xfer_next h
    exact ⟨rfl, _, (xfer_trace ..).symm⟩
  by_cases hp : ∃ p, i = .beginPins p
  · obtain ⟨p, rfl⟩ := hp
    obtain ⟨-, hu, -⟩ := begin_next h
    rw [hb] at hu
    cases hu
  obtain ⟨-, es, hd, -⟩ := exec_did h (fun out e => hx ⟨out, e⟩) fun p e => hp ⟨p, e⟩
  exact ⟨hd.pins, es, hd.trace.symm⟩

theorem return_continues {s t : State} (h : returnFromHandler s = .next t) : Continues s t := by
  obtain ⟨-, pc, outer, -, rfl⟩ := return_next h
  obtain ⟨es, hr⟩ := ran_clear Config.params { s with windows := outer, busy := true, pc := pc }
  exact ⟨hr.pins, es, hr.trace.symm⟩

theorem step_continues {s t : State} (hb : s.bound = true) (h : step s = .next t) : Continues s t := by
  obtain ⟨-, rfl⟩ | ⟨_, rest, i, -, he⟩ | ⟨_, rest, -, hr⟩ := step_cases h
  · exact .refl _
  · exact (exec_continues (s := { s with inbox := rest }) hb he).of_inbox
  · exact (return_continues hr).of_inbox

/-! ### The calls on the host -/

theorem hostCalls_of_pins {s : State} {p : Pins} (hp : s.pins = some p) :
    hostCalls s = s.trace.filterMap (hostCall p) := by
  simp [hostCalls, hp]

/-- The calls added are those of the events added. -/
theorem Continues.hostCalls_eq {s t : State} {p : Pins} (h : Continues s t) (hp : s.pins = some p) :
    hostCalls t = hostCalls s ++ (newEvents s t).filterMap (hostCall p) := by
  obtain ⟨es, he⟩ := h.trace
  rw [hostCalls_of_pins hp, hostCalls_of_pins (h.pins.trans hp), newEvents_of he.symm, ← he, List.filterMap_append]

/-- The ten calls of the pin initialisation, on the handles of a binding (70_reset_and_hazards R152). -/
theorem pinInitEvents_hostCalls (p : Pins) :
    pinInitEvents.filterMap (hostCall p)
      = [.writeLevel p.csn true, .setDirection p.csn .output, .writeLevel p.sck false, .setDirection p.sck .output,
         .writeLevel p.mosi false, .setDirection p.mosi .output, .writeLevel p.ce false, .setDirection p.ce .output,
         .setDirection p.miso .input, .setDirection p.irq .input] := rfl

/-- After the twentieth step the whole recipe is performed. -/
theorem recipeState_all (P : Params) (p : Pins) (s : State) :
    recipeState P p s 20 = P.recipe.toList.foldl (afterStep P) (afterPinInit p s) := by
  rw [recipeState, List.take_of_length_le (by simp)]

/-- BEGIN's binding and trace: the pin initialisation, the recipe's events, chip-enable high (70_reset_and_hazards R151). -/
theorem begin_pins_trace (P : Params) (p : Pins) (s : State) :
    (afterBegin P p s).pins = some p
      ∧ (afterBegin P p s).trace
        = s.trace ++ (pinInitEvents ++ (newEvents (recipeState P p s 0) (recipeState P p s 20) ++ [.set .ce true])) := by
  obtain ⟨es, hr, -⟩ := ran_recipe P p s 20 (Nat.le_refl _)
  have hn : newEvents (recipeState P p s 0) (recipeState P p s 20) = es := hr.newEvents
  rw [afterBegin, ← recipeState_all]
  exact ⟨hr.pins, by simp [hr.trace, hn]⟩

/-- Settles O58: the calls of the events added, on the handles that the block keeps, or that BEGIN takes. -/
theorem hostCallsOnBoundPins : Obligations.HostCallsOnBoundPins := by
  refine ⟨fun p => ⟨fun l => ⟨rfl, rfl, rfl, rfl⟩, fun d => ⟨rfl, rfl, rfl, rfl, rfl, rfl⟩, fun v => ⟨rfl, rfl⟩,
    fun _ => rfl, fun _ => rfl, fun _ => rfl⟩, ?_, ?_⟩
  · rintro s t p hp hb (⟨i, he⟩ | hr | hs)
    · exact (exec_continues hb he).hostCalls_eq hp
    · exact (return_continues hr).hostCalls_eq hp
    · exact (step_continues hb hs).hostCalls_eq hp
  · intro pins s t h
    obtain ⟨-, -, -, rfl⟩ := begin_next h
    obtain ⟨hp, ht⟩ := begin_pins_trace Config.params (pins.getD Config.params.pins) (enter s)
    rw [hostCalls_of_pins (ended_pins _ ▸ hp), ended_trace, ht, enter_trace, List.filterMap_append,
      List.filterMap_append, List.filterMap_append, pinInitEvents_hostCalls]
    rfl

end Sys2Proof.Proofs
end

section
/-! PROOFS. The state between operations. Said once: what an operation does to the trace and to what moves with it (`Recorded`),
for every instruction, BEGIN and a TRANSFER_BYTE in a frame included (`exec_recorded`), for the handler's return (`return_recorded`)
and for a step (`step_recorded`). The invariants and frames of 10_state follow from these. -/

namespace Sys2Proof.Proofs

open Sys2Proof.Machine Sys2Proof.Safety Sys2Proof.Laws

/-! ### What an operation records -/

/-- From `s` to `t` the events `es` were recorded, each of a kind `ok` admits, and the slave's levels, the latches and the cell
counter moved with them. `Laws.Did` says more, but neither of a TRANSFER_BYTE in a frame nor of BEGIN. -/
structure Recorded (ok : Event → Bool) (s t : State) (es : List Event) : Prop where
  trace : t.trace = s.trace ++ es
  kinds : ∀ e ∈ es, ok e = true
  drawn : t.drawn = s.drawn + samplesIn es
  misoIn : t.misoIn = s.misoIn.drop (samplesIn es)
  latches : ∀ p, latch t p = (lastLevel p es).getD (latch s p)
  bitcnt : s.bitcnt ≤ 8 → t.bitcnt ≤ 8
  csn : s.csn = true → t.csn = true
  sck : s.sck = false → t.sck = false

theorem Recorded.refl (ok : Event → Bool) (s : State) : Recorded ok s s [] := by
  constructor <;> simp [lastLevel, samplesIn]

theorem Recorded.trans {ok : Event → Bool} {s t u : State} {es fs : List Event} (h : Recorded ok s t es)
    (k : Recorded ok t u fs) : Recorded ok s u (es ++ fs) where
  trace := by rw [k.trace, h.trace, List.append_assoc]
  kinds := List.forall_mem_append.mpr ⟨h.kinds, k.kinds⟩
  drawn := by rw [k.drawn, h.drawn, samplesIn_append, Nat.add_assoc]
  misoIn := by rw [k.misoIn, h.misoIn, samplesIn_append, List.drop_drop]
  latches p := by rw [k.latches, h.latches, lastLevel_append]; cases lastLevel p fs <;> simp
  bitcnt hb := k.bitcnt (h.bitcnt hb)
  csn hc := k.csn (h.csn hc)
  sck hc := k.sck (h.sck hc)

theorem Recorded.mono {ok ok' : Event → Bool} {s t : State} {es : List Event} (h : Recorded ok s t es)
    (hk : ∀ e, ok e = true → ok' e = true) : Recorded ok' s t es :=
  { h with kinds := fun e he => hk e (h.kinds e he) }

/-- The inbox, the windows, the busy bit and the event index before an operation do not matter. -/
theorem Recorded.of_start {ok : Event → Bool} {s t : State} {es : List Event} {x : List HostInput} {w : List Nat}
    {b : Bool} {n : Nat} (h : Recorded ok { s with inbox := x, windows := w, busy := b, pc := n } t es) :
    Recorded ok s t es :=
  { h with latches := fun p => by rw [h.latches p]; cases p <;> rfl }

theorem Recorded.ended {ok : Event → Bool} {s t : State} {es : List Event} (h : Recorded ok s t es) :
    Recorded ok s (ended t) es :=
  { h with latches := fun p => by rw [latch_ended, h.latches p] }

theorem Recorded.newEvents {ok : Event → Bool} {s t : State} {es : List Event} (h : Recorded ok s t es) :
    newEvents s t = es := newEvents_of h.trace

theorem Recorded.notMem {ok : Event → Bool} {s t : State} {es : List Event} (h : Recorded ok s t es) {e : Event}
    (he : ok e = false) : e ∉ Safety.newEvents s t := fun hm => by
  rw [h.newEvents] at hm
  rw [h.kinds e hm] at he
  cases he

theorem recorded_of_ran {T : Nat} {ok : Event → Bool} {s t : State} {es : List Event} (h : Ran T ok s t es) :
    Recorded ok s t es :=
  ⟨h.trace, List.all_eq_true.mp h.kinds, h.drawn, h.misoIn, h.latches, h.bitcnt, h.csn, h.sck⟩

theorem recorded_of_did {T : Nat} {ok : Event → Bool} {s t : State} {es : List Event} (h : Did T ok s t es) :
    Recorded ok s t es :=
  ⟨h.trace, List.all_eq_true.mp h.kinds, h.drawn, h.misoIn, h.latches, h.bitcnt, h.csn, h.sck⟩

/-- A transfer takes eight samples. -/
theorem samplesIn_byte (T : Nat) (s : State) (k : Nat) (b : Byte) : samplesIn (byteEvents T s k b) = 8 := by
  simpa [bytesEvents] using samplesIn_bytes T s k [b]

/-- A transfer with nothing around it: chip-select and chip-enable stay, the clock ends low (40_transport R85). -/
theorem recorded_transfer (T : Nat) (out : Byte) (s : State) :
    Recorded wireEvent s (afterTransfer T out s) (byteEvents T s 0 out) where
  trace := rfl
  kinds := List.all_eq_true.mp (byteEvents_wire T s 0 out)
  drawn := by rw [samplesIn_byte]; rfl
  misoIn := by rw [samplesIn_byte]; rfl
  latches p := by rw [lastLevel_byte]; cases p <;> rfl
  bitcnt _ := Nat.le_refl 8
  csn hc := hc
  sck _ := rfl

/-! ### The pin initialisation -/

/-- The kinds of event BEGIN records: directions, the wire, chip-enable (70_reset_and_hazards R151). -/
def bootEvent : Event → Bool
  | .dir _ _ => true
  | e => wireOrCe e

theorem bootEvent_of_wireOrCe (e : Event) (h : wireOrCe e = true) : bootEvent e = true := by
  cases e with
  | dir _ _ => rfl
  | set _ _ | get _ _ | wait _ | notify _ | result _ => exact h

/-- The pin initialisation sets every output pin (70_reset_and_hazards R152). -/
theorem lastLevel_pinInit (q : OutPin) (p : Pins) (s : State) :
    lastLevel q pinInitEvents = some (latch (afterPinInit p s) q) := by
  cases q <;> rfl

theorem recorded_pinInit (p : Pins) (s : State) : Recorded bootEvent s (afterPinInit p s) pinInitEvents where
  trace := rfl
  kinds := by decide
  drawn := rfl
  misoIn := rfl
  latches q := by rw [lastLevel_pinInit q p s]; rfl
  bitcnt hb := hb
  csn _ := rfl
  sck _ := rfl

/-! ### What an instruction records -/

/-- The kinds of event an instruction may record: those of `kindsOf`, and for BEGIN its own. -/
def recordable (i : Instr) (e : Event) : Bool :=
  kindsOf i e ||
    match i with
    | .beginPins _ => bootEvent e
    | _ => false

theorem recordable_of_kindsOf {i : Instr} (e : Event) (h : kindsOf i e = true) : recordable i e = true := by
  simp [recordable, h]

theorem recordable_of_bootEvent (p : Option Pins) (e : Event) (h : bootEvent e = true) :
    recordable (.beginPins p) e = true := by
  simp [recordable, h]

/-- No instruction may record a read of IRQ (10_state R25). -/
theorem recordable_irq (i : Instr) (v : Level) : recordable i (.get .irq v) = false := by
  cases i <;> rfl

/-- Only POLL may record NOTIFY (42_radio_control R132). -/
theorem recordable_notify {i : Instr} (hi : i ≠ .poll) (h : Handler) : recordable i (.notify h) = false := by
  cases i with
  | poll => exact absurd rfl hi
  | _ => rfl

/-- Only SET_MODE_RX and BEGIN may drive chip-enable (42_radio_control R117). -/
theorem recordable_ce {i : Instr} (hi : i ≠ .rxmode) (hp : ∀ p, i ≠ .beginPins p) (l : Level) :
    recordable i (.set .ce l) = false := by
  cases i with
  | rxmode => exact absurd rfl hi
  | beginPins p => exact absurd rfl (hp p)
  | _ => rfl

/-- What every instruction is known to have done, BEGIN and a TRANSFER_BYTE in a frame included. -/
structure ExecRecorded (i : Instr) (s t : State) (es : List Event) : Prop where
  recorded : Recorded (recordable i) s t es
  pc : t.pc = es.length
  inbox : t.inbox = s.inbox
  busy : t.busy = false
  rxHandler : (∀ h, i ≠ .onrx h) → t.rxHandler = s.rxHandler

/-- A TRANSFER_BYTE in a frame: the transfer, then RESULT (40_transport R82). -/
theorem xfer_recorded {out : Byte} {s t : State} (h : exec (.xfer out) s = .next t) :
    ∃ es, ExecRecorded (.xfer out) s t es := by
  obtain ⟨-, -, -, rfl⟩ := xfer_next h
  have ht := recorded_transfer Config.params.tSettle out (enter s)
  have hr := recorded_of_ran (ran_result Config.params.tSettle (.byte (sampledByte s 0))
    (afterTransfer Config.params.tSettle out (enter s)))
  have hk : ∀ e, (e == Event.result (.byte (sampledByte s 0))) = true → recordable (.xfer out) e = true := fun e he => by
    rw [eq_of_beq he]; rfl
  have hw : ∀ e, wireEvent e = true → recordable (.xfer out) e = true := fun e he =>
    recordable_of_kindsOf e (kindsOf_wire _ e he)
  refine ⟨_, ((ht.mono hw).trans (hr.mono hk)).ended.of_start, ?_, rfl, rfl, fun _ => rfl⟩
  rw [List.length_append, byteEvents_length]
  rfl

/-- BEGIN after its entry: the pin initialisation, then the recipe and chip-enable high (70_reset_and_hazards R151). -/
theorem begin_recorded {p : Option Pins} {s t : State} (h : exec (.beginPins p) s = .next t) :
    ∃ es, ExecRecorded (.beginPins p) s t es := by
  obtain ⟨-, -, -, rfl⟩ := begin_next h
  obtain ⟨es, hr, -⟩ := begin_ran (p.getD Config.params.pins) s
  have hi := recorded_pinInit (p.getD Config.params.pins) (enter s)
  have hb := (recorded_of_ran hr).mono bootEvent_of_wireOrCe
  refine ⟨pinInitEvents ++ (es ++ [.set .ce true]), ?_, ?_, hr.inbox, rfl, fun _ => hr.rxHandler⟩
  · exact ((hi.trans hb).mono (recordable_of_bootEvent p)).ended.of_start
  · rw [ended_pc, hr.pc, List.length_append (as := pinInitEvents)]; rfl

theorem exec_recorded {i : Instr} {s t : State} (h : exec i s = .next t) : ∃ es, ExecRecorded i s t es := by
  by_cases hx : ∃ out, i = .xfer out
  · obtain ⟨out, rfl⟩ := hx
    exact xfer_recorded h
  by_cases hp : ∃ p, i = .beginPins p
  · obtain ⟨p, rfl⟩ := hp
    exact begin_recorded h
  obtain ⟨-, es, hd, -, hh⟩ := exec_did h (fun out e => hx ⟨out, e⟩) fun p e => hp ⟨p, e⟩
  exact ⟨es, (recorded_of_did hd).mono recordable_of_kindsOf, hd.pc, hd.inbox, hd.busy, hh⟩

/-! ### What keeps the binding -/

/-- `t` has the pins, the bound bit and the directions of `s`. -/
structure KeepsBinding (s t : State) : Prop where
  pins : t.pins = s.pins
  bound : t.bound = s.bound
  dir : t.dir = s.dir

theorem KeepsBinding.of_inbox {s t : State} {rest : List HostInput} (h : KeepsBinding { s with inbox := rest } t) :
    KeepsBinding s t := ⟨h.pins, h.bound, h.dir⟩

/-- Every instruction but BEGIN keeps the binding, and but POLL the windows. -/
theorem exec_keepsBinding {i : Instr} {s t : State} (hp : ∀ p, i ≠ .beginPins p) (h : exec i s = .next t) :
    KeepsBinding s t ∧ (i ≠ .poll → t.windows = s.windows) := by
  by_cases hx : ∃ out, i = .xfer out
  · obtain ⟨out, rfl⟩ := hx
    obtain ⟨-, -, -, rfl⟩ := xfer_next h
    exact ⟨⟨rfl, rfl, rfl⟩, fun _ => rfl⟩
  obtain ⟨-, es, hd, hw, -⟩ := exec_did h (fun out e => hx ⟨out, e⟩) hp
  exact ⟨⟨hd.pins, hd.bound, hd.dir⟩, hw⟩

/-! ### The handler's return, and the step -/

/-- The handler's return performs poll's clear and nothing else (42_radio_control R133). -/
theorem return_recorded {s t : State} (h : returnFromHandler s = .next t) :
    (∃ es, Recorded wireEvent s t es) ∧ KeepsBinding s t ∧ t.busy = false ∧ t.rxHandler = s.rxHandler := by
  obtain ⟨-, pc, outer, -, rfl⟩ := return_next h
  obtain ⟨es, hr⟩ := ran_clear Config.params { s with windows := outer, busy := true, pc := pc }
  exact ⟨⟨es, (recorded_of_ran hr).ended.of_start⟩, ⟨hr.pins, hr.bound, hr.dir⟩, rfl, hr.rxHandler⟩

/-- The kinds of event a step may record: all but a read of IRQ (10_state R25). -/
def stepEvent : Event → Bool
  | .get .irq _ => false
  | _ => true

theorem stepEvent_of_wireEvent (e : Event) (h : wireEvent e = true) : stepEvent e = true := by
  unfold stepEvent
  split
  · exact h
  · rfl

theorem stepEvent_of_recordable (i : Instr) (e : Event) (h : recordable i e = true) : stepEvent e = true := by
  unfold stepEvent
  split
  · rwa [recordable_irq] at h
  · rfl

theorem step_recorded {s t : State} (h : step s = .next t) : ∃ es, Recorded stepEvent s t es := by
  obtain ⟨-, rfl⟩ | ⟨_, rest, i, -, he⟩ | ⟨_, rest, -, hr⟩ := step_cases h
  · exact ⟨[], .refl _ _⟩
  · obtain ⟨es, hd⟩ := exec_recorded he
    exact ⟨es, (hd.recorded.mono (stepEvent_of_recordable i)).of_start⟩
  · obtain ⟨⟨es, hd⟩, -⟩ := return_recorded hr
    exact ⟨es, (hd.mono stepEvent_of_wireEvent).of_start⟩

theorem step_keepsBinding_or_begin {s t : State} (h : step s = .next t) :
    KeepsBinding s t ∨ ∃ rest p, exec (.beginPins p) { s with inbox := rest } = .next t := by
  obtain ⟨-, rfl⟩ | ⟨_, rest, i, -, he⟩ | ⟨_, rest, -, hr⟩ := step_cases h
  · exact .inl ⟨rfl, rfl, rfl⟩
  · by_cases hp : ∃ p, i = .beginPins p
    · obtain ⟨p, rfl⟩ := hp
      exact .inr ⟨rest, p, he⟩
    · exact .inl (exec_keepsBinding (fun p e => hp ⟨p, e⟩) he).1.of_inbox
  · exact .inl (return_recorded hr).2.1.of_inbox

/-- A bound block keeps its binding: there BEGIN answers no next state (70_reset_and_hazards R158). -/
theorem step_keepsBinding {s t : State} (hb : s.bound = true) (h : step s = .next t) : KeepsBinding s t := by
  obtain hk | ⟨rest, p, he⟩ := step_keepsBinding_or_begin h
  · exact hk
  · obtain ⟨-, hu, -⟩ := begin_next he
    exact absurd (hb.symm.trans hu) (by decide)

/-- A step of an idle block leaves it idle (10_state R29). -/
theorem step_busy {s t : State} (hi : s.busy = false) (h : step s = .next t) : t.busy = false := by
  obtain ⟨-, rfl⟩ | ⟨_, rest, i, -, he⟩ | ⟨_, rest, -, hr⟩ := step_cases h
  · exact hi
  · obtain ⟨es, hd⟩ := exec_recorded he
    exact hd.busy
  · exact (return_recorded hr).2.2.1

/-! ### Before begin -/

/-- Before begin only SET_RECEIVE_CALLBACK and BEGIN answer a next state (60_exceptions R138). -/
theorem onrx_or_begin_of_unbound {i : Instr} {s t : State} (hb : s.bound = false) (h : exec i s = .next t) :
    (∃ hd, i = .onrx hd) ∨ ∃ p, i = .beginPins p := by
  have unbound : s.bound ≠ true := by simp [hb]
  cases i with
  | onrx hd => exact .inl ⟨hd, rfl⟩
  | beginPins p => exact .inr ⟨p, rfl⟩
  | cmdReadRegister _ _ | cmdWriteRegister _ _ | cmdReadRxPayloadWidth | cmdReadRxPayload _ =>
    exact absurd (whenReadyCommand_next h).2.1 unbound
  | _ => exact absurd (whenReady_next h).2.1 unbound

/-- SET_RECEIVE_CALLBACK writes the slot (42_radio_control R131). -/
theorem onrx_next {hd : Option Handler} {s t : State} (h : exec (.onrx hd) s = .next t) :
    t = ended { enter s with rxHandler := hd } := complete_next (ifIdle_next h).2

/-- BEGIN establishes rest (70_reset_and_hazards R151; 10_state R37). -/
theorem begin_atRest {p : Option Pins} {s t : State} (hc : s.bitcnt ≤ 8) (h : exec (.beginPins p) s = .next t) :
    AtRest t := by
  obtain ⟨-, -, hd, rfl⟩ := begin_next h
  obtain ⟨es, hr, -⟩ := begin_ran (p.getD Config.params.pins) s
  have hbound : (ended (afterBegin Config.params (p.getD Config.params.pins) (enter s))).bound = true := hr.bound
  refine ⟨rfl, hr.bitcnt hc, fun hu => ?_, fun _ => ⟨hr.csn rfl, hr.sck rfl, hr.dir, _, hr.pins, hd⟩⟩
  rw [hbound] at hu
  cases hu

/-- A block at rest and not yet bound: nothing has happened to it. -/
theorem atRest_of_unbound {t : State} (hi : t.busy = false) (hc : t.bitcnt ≤ 8) (hb : t.bound = false)
    (hu : t.pins = none ∧ t.windows = [] ∧ t.trace = []) : AtRest t :=
  ⟨hi, hc, fun _ => hu, fun hb' => absurd hb' (by simp [hb])⟩

/-- A step of an unbound block at rest: it is idle, or registers a handler, or is BEGIN; no handler can return. -/
theorem step_atRest_of_unbound {s t : State} (hs : AtRest s) (hb : s.bound = false) (h : step s = .next t) :
    AtRest t := by
  have ⟨_, hc, hu, _⟩ := hs
  obtain ⟨-, rfl⟩ | ⟨_, rest, i, -, he⟩ | ⟨_, rest, -, hr⟩ := step_cases h
  · exact hs
  · obtain ⟨hd, rfl⟩ | ⟨p, rfl⟩ := onrx_or_begin_of_unbound (s := { s with inbox := rest }) hb he
    · rw [onrx_next he]
      exact atRest_of_unbound rfl hc hb (hu hb)
    · exact begin_atRest (s := { s with inbox := rest }) hc he
  · obtain ⟨-, _, _, hw, -⟩ := return_next hr
    exact absurd ((hu hb).2.1.symm.trans hw) (by simp)

/-- A step of a bound block at rest: the lines, the directions and the pins are kept. -/
theorem step_atRest_of_bound {s t : State} (hs : AtRest s) (hb : s.bound = true) (h : step s = .next t) :
    AtRest t := by
  obtain ⟨hi, hc, -, hbd⟩ := hs
  obtain ⟨hcsn, hsck, hdir, p, hpins, hdistinct⟩ := hbd hb
  obtain ⟨es, hr⟩ := step_recorded h
  have hk := step_keepsBinding hb h
  refine ⟨step_busy hi h, hr.bitcnt hc, fun hu => ?_, fun _ =>
    ⟨hr.csn hcsn, hr.sck hsck, hk.dir.trans hdir, p, hk.pins.trans hpins, hdistinct⟩⟩
  rw [hk.bound, hb] at hu
  cases hu

/-- Settles O45: a bound block keeps its lines and its binding, an unbound one stays as it was or is bound by BEGIN. -/
theorem stepKeepsRest : Obligations.StepKeepsRest := fun s _ hs h => by
  cases hb : s.bound with
  | false => exact step_atRest_of_unbound hs hb h
  | true => exact step_atRest_of_bound hs hb h

/-! ### The latches -/

theorem Recorded.lastLevel_eq {ok : Event → Bool} {s t : State} {es : List Event} (h : Recorded ok s t es) {p : OutPin}
    (hp : lastLevel p s.trace = some (latch s p)) : lastLevel p t.trace = some (latch t p) := by
  rw [h.trace, lastLevel_append, hp, h.latches]
  cases lastLevel p es <;> rfl

/-- BEGIN sets every output pin, so it makes the latches true whatever they were before (70_reset_and_hazards R152). -/
theorem begin_latchesTrue {p : Option Pins} {s t : State} (h : exec (.beginPins p) s = .next t) : LatchesTrue t := by
  obtain ⟨-, -, -, rfl⟩ := begin_next h
  obtain ⟨es, hr, -⟩ := begin_ran (p.getD Config.params.pins) s
  refine fun _ q => (recorded_of_ran hr).ended.lastLevel_eq ?_
  rw [afterPinInit_trace, lastLevel_append, lastLevel_pinInit q (p.getD Config.params.pins) (enter s), Option.some_or]

/-- Settles O47: a step that keeps the binding moves the latches with the events it adds, and BEGIN sets them all. -/
theorem stepKeepsLatchesTrue : Obligations.StepKeepsLatchesTrue := by
  intro s t hs h
  obtain hk | ⟨rest, p, he⟩ := step_keepsBinding_or_begin h
  · obtain ⟨es, hr⟩ := step_recorded h
    exact fun hb q => hr.lastLevel_eq (hs (hk.bound ▸ hb) q)
  · exact begin_latchesTrue he

/-! ### The trace, the binding and the frame -/

/-- Settles O48: every step is a recording, and one of a bound block keeps the binding. -/
theorem bindingIsForGood : Obligations.BindingIsForGood := by
  intro s t h
  obtain ⟨es, hr⟩ := step_recorded h
  refine ⟨⟨es, hr.trace⟩, fun hb => ?_⟩
  obtain ⟨hpins, hbound, hdir⟩ := step_keepsBinding hb h
  exact ⟨hbound.trans hb, hpins, hdir⟩

/-- Events that do not set a pin give it no level. -/
theorem lastLevel_of_notMem {p : OutPin} {es : List Event} (h : ∀ l, Event.set p l ∉ es) : lastLevel p es = none := by
  induction es with
  | nil => rfl
  | cons e es ih =>
    have he : ∀ l, e ≠ .set p l := fun l hl => h l (hl ▸ List.mem_cons_self ..)
    simp [lastLevel, ih fun l hl => h l (List.mem_cons_of_mem _ hl), he]

/-- An operation that sets a pin nowhere leaves its latch. -/
theorem Recorded.latch_eq {ok : Event → Bool} {s t : State} {es : List Event} (h : Recorded ok s t es) {p : OutPin}
    (hp : ∀ l, ok (.set p l) = false) : latch t p = latch s p := by
  have hn : ∀ l, Event.set p l ∉ es := fun l => h.newEvents ▸ h.notMem (hp l)
  rw [h.latches, lastLevel_of_notMem hn, Option.getD_none]

/-- Settles O49: the frame of `exec_recorded` and `exec_keepsBinding`; chip-enable stays where no event sets it. -/
theorem instructionFrame : Obligations.InstructionFrame := by
  intro i s t hp h
  obtain ⟨⟨hpins, hbound, hdir⟩, hwindows⟩ := exec_keepsBinding hp h
  obtain ⟨es, hr, -, hinbox, hbusy, hhandler⟩ := exec_recorded h
  have hce : i ≠ .rxmode → t.ce = s.ce := fun hi => hr.latch_eq (recordable_ce hi hp)
  rw [hr.newEvents]
  exact ⟨hpins, hbound, hdir, hinbox, hbusy, hwindows, hhandler, hce, hr.trace, hr.drawn, hr.misoIn⟩

/-- Settles O50: an operation starts with index 0 and every event advances it. -/
theorem eventIndexCounts : Obligations.EventIndexCounts := by
  intro i s t h
  obtain ⟨es, hr⟩ := exec_recorded h
  exact ⟨es, hr.recorded.trace, hr.pc⟩

/-! ### The handler slot, and IRQ -/

/-- POLL ends after events of the wire, or stands at NOTIFY after its read frame (42_radio_control R132). -/
theorem poll_next {s t : State} (h : exec .poll s = .next t) :
    (∃ u es, Ran Config.params.tSettle wireEvent (enter s) u es ∧ t = ended u)
    ∨ ∃ u es hd, Ran Config.params.tSettle wireEvent (enter s) u es ∧ s.rxHandler = some hd ∧ t = openWindow hd u := by
  obtain ⟨-, -, h⟩ := whenReady_next h
  have hr := ran_frame Config.params.tSettle (cmdR (regByte Config.params.regStatus)) [0] (enter s)
  simp only [poll, readBit_eq] at h
  split at h
  · split at h
    case h_1 hd hslot =>
      cases h
      exact .inr ⟨_, _, hd, hr, hslot, rfl⟩
    case h_2 =>
      rw [clearReady_eq] at h
      obtain ⟨es, hc⟩ := ran_clear Config.params (afterRead Config.params.tSettle
        (cmdR (regByte Config.params.regStatus)) 1 (enter s))
      exact .inl ⟨_, _, hr.trans hc, complete_next h⟩
  · exact .inl ⟨_, _, hr, complete_next h⟩

/-- POLL notifies the handler in the slot and no other. -/
theorem poll_notify {s t : State} (h : exec .poll s = .next t) {hd : Handler} (hm : Event.notify hd ∈ newEvents s t) :
    s.rxHandler = some hd := by
  obtain ⟨u, es, hr, rfl⟩ | ⟨u, es, hd', hr, hslot, rfl⟩ := poll_next h
  · exact absurd hm ((recorded_of_ran hr).ended.of_start.notMem rfl)
  · have ht : (openWindow hd' u).trace = s.trace ++ (es ++ [.notify hd']) := by simp [openWindow, hr.trace]
    rw [newEvents_of ht, List.mem_append, List.mem_singleton] at hm
    obtain hw | hn := hm
    · exact absurd ((recorded_of_ran hr).kinds _ hw) (by simp [wireEvent])
    · cases hn
      exact hslot

/-- Settles O52: the slot and the kinds of event of an instruction and of the return, and `poll_notify`. -/
theorem handlerSlotUse : Obligations.HandlerSlotUse := by
  refine ⟨fun i s t hi h => ?_, fun i s t hi h hd => ?_, fun s t h => ?_, fun s t h hd hm => poll_notify h hm⟩
  · obtain ⟨es, hr⟩ := exec_recorded h
    exact hr.rxHandler hi
  · obtain ⟨es, hr⟩ := exec_recorded h
    exact hr.recorded.notMem (recordable_notify hi hd)
  · obtain ⟨⟨es, hr⟩, -, -, hslot⟩ := return_recorded h
    exact ⟨hslot, fun _ => hr.notMem rfl⟩

/-- Settles O53: a read of IRQ is none of the kinds a step records. -/
theorem irqNeverRead : Obligations.IrqNeverRead := by
  intro s t v h
  obtain ⟨es, hr⟩ := step_recorded h
  exact hr.notMem rfl

/-! ### Reset -/

/-- Settles O43: the four values are those `State.reset` is written with. -/
theorem resetValues : Obligations.ResetValues := ⟨rfl, rfl, rfl, rfl⟩

/-- Settles O44: nothing has happened to the reset state, and it is not bound. -/
theorem resetMeetsInvariants : Obligations.ResetMeetsInvariants :=
  ⟨atRest_of_unbound rfl (by decide) rfl ⟨rfl, rfl, rfl⟩, fun hb => absurd hb (by decide),
    fun hb => absurd hb (by decide)⟩

end Sys2Proof.Proofs
end

section
/-! PROOFS. The encoding. What each operand reader does on the bytes its writer gives composes to the round trip
(`takeInstr_encode`), and what each reader was given to its converse (`takeInstr_ok`). The wire command forms and the
pseudo-operations are read frames and write frames of a ready block, and no frame ever violates the format on the bus. -/

namespace Sys2Proof.Proofs

open Sys2Proof.Machine Sys2Proof.Safety Sys2Proof.Laws

/-! ### Each reader gives back what its writer wrote -/

theorem takeHandler_encode (h : Option Handler) (rest : List Byte) :
    takeHandler (encodeHandler h ++ rest) = .ok (h, rest) := by
  cases h with
  | none => rfl
  | some h =>
    show andThen (takeNat (encodeNat h ++ rest)) _ = _
    rw [takeNat_encode, andThen]

theorem takeRate_encode (r : DataRate) (rest : List Byte) : takeRate (encodeRate r ++ rest) = .ok (r, rest) := by
  cases r <;> rfl

theorem takePins_encode (p : Option Pins) (rest : List Byte) : takePins (encodePins p ++ rest) = .ok (p, rest) := by
  cases p with
  | none => rfl
  | some p =>
    show andThen (takeSixPins _) _ = _
    simp [takeSixPins, takeNat_encode, andThen]

/-- A request is read back from its ordinal and its operands, whatever bytes follow. -/
theorem takeRequest_encode {i : Instr} (hi : i.format = .hostop) (rest : List Byte) :
    takeRequest (encode i ++ rest) = .ok (i, rest) := by
  cases i with
  | cmdReadRegister _ _ | cmdWriteRegister _ _ | cmdReadRxPayloadWidth | cmdReadRxPayload _ => cases hi
  | wcmd cmd data | wregn addr buf len =>
    simp [encode, takeRequest, decodeOperands, takeByte, takeBytes_encode, takeNat_encode, andThen]
  | rregn _ len | rpl len => simp [encode, takeRequest, decodeOperands, takeByte, takeNat_encode, andThen]
  | dr rate => simp [encode, takeRequest, decodeOperands, takeRate_encode, andThen]
  | onrx handler => simp [encode, takeRequest, decodeOperands, takeHandler_encode, andThen]
  | beginPins pins => simp [encode, takeRequest, decodeOperands, takePins_encode, andThen]
  | _ => rfl

/-- A wire command is read back from its command byte and its payload, whatever bytes follow. -/
theorem takeCommand_encode {i : Instr} (hi : i.format = .cmd8) (rest : List Byte) :
    takeCommand (encode i ++ rest) = .ok (i, rest) := by
  cases i with
  | cmdReadRegister a len => simp [encode, takeCommand, commandForm_read, takeNat_encode, andThen]
  | cmdWriteRegister a data => simp [encode, takeCommand, commandForm_write, takeBytes_encode, andThen]
  | cmdReadRxPayloadWidth => rfl
  | cmdReadRxPayload len =>
    have hc : commandForm cmdPayload = .readPayload := by decide
    simp [encode, takeCommand, hc, takeNat_encode, andThen]
  | _ => cases hi

theorem takeInstr_encode (i : Instr) (rest : List Byte) :
    takeInstr i.format (encode i ++ rest) = .ok (i, rest) := by
  cases hf : i.format with
  | hostop => exact takeRequest_encode hf rest
  | cmd8 => exact takeCommand_encode hf rest

/-! ### The decoder -/

/-- Bytes decode as an instruction exactly when it is read from them with nothing left. -/
theorem decode_ok_iff {f : Format} {bs : List Byte} {i : Instr} : decode f bs = .ok i ↔ takeInstr f bs = .ok (i, []) := by
  unfold decode
  split <;> simp [*]

/-- Settles O1: an encoding is read back with nothing left. -/
theorem decodeEncodeAgree : Obligations.DecodeEncodeAgree := fun i =>
  decode_ok_iff.mpr (List.append_nil (encode i) ▸ takeInstr_encode i [])

/-- What an instruction is read from, in either format, is its encoding. -/
theorem takeInstr_ok {f : Format} {bs rest : List Byte} {i : Instr} (h : takeInstr f bs = .ok (i, rest)) :
    i.format = f ∧ bs = encode i ++ rest := by
  cases f with
  | hostop => exact takeRequest_ok h
  | cmd8 => exact takeCommand_ok h

/-- Settles O2: the bytes read are the encoding, and none are left. -/
theorem decodedBytesAreTheEncoding : Obligations.DecodedBytesAreTheEncoding := by
  intro f bs i h
  obtain ⟨hf, hb⟩ := takeInstr_ok (decode_ok_iff.mp h)
  exact ⟨hf, by rw [hb, List.append_nil]⟩

/-- Settles O3: the decoder evaluates on each word. -/
theorem specWordsDecode : Obligations.SpecWordsDecode := ⟨rfl, rfl, rfl, rfl, rfl, rfl, rfl, rfl, rfl, rfl⟩

/-! ### Command bytes -/

/-- A 5-bit address leaves bits 7 to 5 zero (30_encoding R62). -/
theorem extractLsb'_high_of_lt {addr : Byte} (h : addr.toNat < 32) : addr.extractLsb' 5 3 = 0b000#3 := by
  apply BitVec.eq_of_toNat_eq
  simp [Nat.shiftRight_eq_div_pow]
  omega

/-- Settles O4: OR with 0x20 acts on the high bits and on the low bits apart. -/
theorem commandByteForms : Obligations.CommandByteForms := by
  intro addr
  refine ⟨by simp [cmdR], rfl, rfl, fun h => ?_⟩
  have hhi := extractLsb'_high_of_lt h
  refine ⟨hhi, rfl, ?_, ?_⟩
  · rw [cmdW, BitVec.extractLsb'_or, hhi]; rfl
  · rw [cmdW, BitVec.extractLsb'_or]; exact BitVec.or_zero

/-- Bit 7 of a listed command byte is 0 (30_encoding R66). -/
theorem bit7_of_listed {c : Byte} (h : commandForm c ≠ .unlisted) : c.getLsbD 7 = false := by
  obtain ⟨hr, hw, hpw, hp⟩ := commandForm_inv c
  cases hc : commandForm c with
  | readRegister a => simp [hr a hc, cmdR, regByte]
  | writeRegister a => simp [hw a hc, cmdW, regByte]
  | readPayloadWidth => rw [hpw hc]; rfl
  | readPayload => rw [hp hc]; rfl
  | unlisted => exact absurd hc h

/-- Settles O5: the rows are the branches of `commandForm`. -/
theorem busMonitorDecoding : Obligations.BusMonitorDecoding := by
  intro c
  refine ⟨fun h => ?_, fun h => ?_, fun h => ?_, fun h => ?_, fun h0 h1 h2 h3 => ?_, bit7_of_listed⟩
  · rw [commandForm, if_pos h]
  · rw [commandForm, if_neg (by rw [h]; decide), if_pos h]
  · rw [h]; rfl
  · rw [h]; rfl
  · rw [commandForm, if_neg h0, if_neg h1, if_neg h2, if_neg h3]

/-! ### The wire command forms -/

theorem exec_cmdReadRegister (a : RegAddr) (n : Nat) (s : State) :
    exec (.cmdReadRegister a n) s
      = whenReadyCommand (regByte a) s (.next (ended (afterRead Config.params.tSettle (regByte a) n (enter s)))) := by
  rw [exec, execCmdReadRegister, memRead_eq]; rfl

theorem exec_cmdWriteRegister (a : RegAddr) (data : List Byte) (s : State) :
    exec (.cmdWriteRegister a data) s
      = whenReadyCommand (regByte a ||| 0x20) s
          (.next (ended (afterFrame Config.params.tSettle (regByte a ||| 0x20) data (enter s)))) := by
  rw [exec, execCmdWriteRegister, memWrite_eq]; rfl

theorem exec_cmdReadRxPayloadWidth (s : State) :
    exec .cmdReadRxPayloadWidth s
      = whenReadyCommand 0x60 s (.next (ended (afterRead Config.params.tSettle 0x60 1 (enter s)))) := by
  rw [exec, execCmdReadRxPayloadWidth, memRead_eq]; rfl

theorem exec_cmdReadRxPayload (n : Nat) (s : State) :
    exec (.cmdReadRxPayload n) s
      = whenReadyCommand 0x61 s (.next (ended (afterRead Config.params.tSettle 0x61 n (enter s)))) := by
  rw [exec, execCmdReadRxPayload, memRead_eq]; rfl

/-- Before begin a command faults with its command byte (log entry 9). -/
theorem whenReadyCommand_of_unbound {s : State} (hi : s.busy = false) (hb : s.bound = false) (c : Byte) (k : Outcome) :
    whenReadyCommand c s k = .fault (.notBoundCommand c) := by
  simp [whenReadyCommand, ifIdle, hi, hb]

/-- Settles O10: each form is admitted as a command and is the one frame that opens with its byte. -/
theorem wireCommandFrames : Obligations.WireCommandFrames := by
  refine ⟨fun a n data s hs => ⟨?_, ?_, ?_, ?_⟩, fun i s hf hi hb => ?_⟩
  · rw [exec_cmdReadRegister, whenReadyCommand_of_ready hs]
  · rw [exec_cmdWriteRegister, whenReadyCommand_of_ready hs]
  · rw [exec_cmdReadRxPayloadWidth, whenReadyCommand_of_ready hs]
  · rw [exec_cmdReadRxPayload, whenReadyCommand_of_ready hs]
  · cases i with
    | cmdReadRegister _ _ | cmdWriteRegister _ _ | cmdReadRxPayloadWidth | cmdReadRxPayload _ =>
      exact ⟨_, rfl, whenReadyCommand_of_unbound hi hb _ _⟩
    | _ => cases hf

/-! ### The pseudo-operations -/

theorem exec_rregn_of_ready {s : State} (hs : Ready s) (addr : Byte) (len : Nat) :
    exec (.rregn addr len) s
      = .next (ended (returned (.bytes (reply s 8 len)) (afterRead Config.params.tSettle addr len (enter s)))) := by
  simp only [exec, execRregn, whenReady_of_ready hs, memRead_eq, reply_enter]; rfl

theorem exec_rreg_of_ready {s : State} (hs : Ready s) (addr : Byte) :
    exec (.rreg addr) s
      = .next (ended (returned (.byte (sampledByte s 8)) (afterRead Config.params.tSettle addr 1 (enter s)))) := by
  simp only [exec, execRreg, whenReady_of_ready hs, readRegister_eq, sampledByte_enter]; rfl

theorem exec_rplw_of_ready {s : State} (hs : Ready s) :
    exec .rplw s
      = .next (ended (returned (.byte (sampledByte s 8)) (afterRead Config.params.tSettle 0x60 1 (enter s)))) := by
  simp only [exec, execRplw, whenReady_of_ready hs, memRead_eq, reply_enter]; rfl

theorem exec_rpl_of_ready {s : State} (hs : Ready s) (len : Nat) :
    exec (.rpl len) s
      = .next (ended (returned (.bytes (reply s 8 len)) (afterRead Config.params.tSettle 0x61 len (enter s)))) := by
  simp only [exec, execRpl, whenReady_of_ready hs, memRead_eq, reply_enter]; rfl

theorem exec_wregn_of_ready {s : State} (hs : Ready s) {buf : List Byte} {len : Nat} (hl : len ≤ buf.length)
    (addr : Byte) :
    exec (.wregn addr buf len) s
      = .next (ended (afterFrame Config.params.tSettle (addr ||| 0x20) (buf.take len) (enter s))) := by
  simp only [exec, execWregn, whenReady_of_ready hs, memWrite_eq, if_neg (Nat.not_lt.mpr hl)]; rfl

theorem exec_wreg_of_ready {s : State} (hs : Ready s) (addr value : Byte) :
    exec (.wreg addr value) s
      = .next (ended (afterFrame Config.params.tSettle (addr ||| 0x20) [value] (enter s))) := by
  simp only [exec, execWreg, whenReady_of_ready hs, writeRegister_eq]; rfl

/-- Settles O18: both of a pair are the same frame, and the reply of one byte is the byte sampled. -/
theorem pseudoOperationPairs : Obligations.PseudoOperationPairs := fun addr value len _ hs =>
  ⟨⟨_, _, exec_rregn_of_ready hs addr 1, exec_rreg_of_ready hs addr⟩,
    (exec_wregn_of_ready hs (Nat.le_refl [value].length) addr).trans (exec_wreg_of_ready hs addr value).symm,
    ⟨_, _, exec_rregn_of_ready hs 0x60 1, exec_rplw_of_ready hs⟩,
    (exec_rregn_of_ready hs 0x61 len).trans (exec_rpl_of_ready hs len).symm⟩

/-! ### The bus -/

/-- Events that run a monitor from between frames to between frames keep the bus clean. -/
theorem cleanBus_append {s t : State} {es : List Event} (hs : CleanBus s) (hb : t.bound = s.bound)
    (ht : t.trace = s.trace ++ es) (he : busRun Config.params.tSettle es .idle = some .idle) : CleanBus t := by
  intro hbt
  obtain ⟨old, htr, hrun⟩ := hs (hb ▸ hbt)
  exact ⟨old ++ es, by rw [ht, htr, List.append_assoc], by rw [busRun_append, hrun, Option.bind_some, he]⟩

/-- BEGIN's pin initialisation is the start of a trace; the recipe and chip-enable high run the monitor
(70_reset_and_hazards R151). -/
theorem begin_cleanBus {p : Option Pins} {s t : State} (hs : s.trace = []) (h : exec (.beginPins p) s = .next t) :
    CleanBus t := by
  obtain ⟨-, -, -, rfl⟩ := begin_next h
  obtain ⟨es, hr, htr⟩ := begin_ran (p.getD Config.params.pins) s
  exact fun _ => ⟨_, by rw [htr, hs, List.nil_append], hr.bus⟩

/-- An instruction of a block at rest. TRANSFER_BYTE is the one that would record cells outside a frame; it is refused, since
chip-select is high (60_exceptions R145; 10_state R37). -/
theorem exec_cleanBus {i : Instr} {s t : State} (hs : AtRest s) (hc : CleanBus s) (h : exec i s = .next t) :
    CleanBus t := by
  obtain ⟨-, -, hunbound, hbound⟩ := hs
  by_cases hx : ∃ out, i = .xfer out
  · obtain ⟨out, rfl⟩ := hx
    obtain ⟨-, hb, hlow, -⟩ := xfer_next h
    obtain ⟨hhigh, -⟩ := hbound hb
    exact absurd (hhigh.symm.trans hlow) (by decide)
  by_cases hp : ∃ p, i = .beginPins p
  · obtain ⟨p, rfl⟩ := hp
    obtain ⟨-, hb, -⟩ := begin_next h
    obtain ⟨-, -, htrace⟩ := hunbound hb
    exact begin_cleanBus htrace h
  obtain ⟨-, es, hd, -⟩ := exec_did h (fun out e => hx ⟨out, e⟩) fun p e => hp ⟨p, e⟩
  exact cleanBus_append hc hd.bound hd.trace hd.bus

theorem return_cleanBus {s t : State} (hc : CleanBus s) (h : returnFromHandler s = .next t) : CleanBus t := by
  obtain ⟨-, pc, outer, -, rfl⟩ := return_next h
  obtain ⟨es, hr⟩ := ran_clear Config.params { s with windows := outer, busy := true, pc := pc }
  exact cleanBus_append hc hr.bound hr.trace hr.bus

/-- Settles O46: idle, an instruction, or the handler's return; taking the item touches neither the bus nor rest. -/
theorem stepKeepsBusClean : Obligations.StepKeepsBusClean := by
  intro s t hs hc h
  obtain ⟨-, rfl⟩ | ⟨_, rest, i, -, he⟩ | ⟨_, rest, -, hr⟩ := step_cases h
  · exact hc
  · exact exec_cleanBus (s := { s with inbox := rest }) hs hc he
  · exact return_cleanBus (s := { s with inbox := rest }) hc hr

end Sys2Proof.Proofs
end

section
/-! PROOFS. The transport. A byte is fixed by its bits read from the top, which gives the laws of the reversal and of a
transfer; and what an operation without a read-modify-write shows but for the samples is a list of events that the
instruction alone fixes (`Shows`). -/

namespace Sys2Proof.Proofs

open Sys2Proof.Machine Sys2Proof.Safety Sys2Proof.Laws

/-! ### Bytes from their bits -/

/-- Bit `7 - k` is the `k`-th of the bits listed from the top. -/
theorem byteOfBits_getLsbD (b7 b6 b5 b4 b3 b2 b1 b0 : Bool) (k : Fin 8) :
    (byteOfBits b7 b6 b5 b4 b3 b2 b1 b0).getLsbD (7 - k) = [b7, b6, b5, b4, b3, b2, b1, b0][k] := by
  revert b7 b6 b5 b4 b3 b2 b1 b0 k
  decide

/-- Bytes that agree on every bit, read from the top, are equal. -/
theorem byte_eq_of_bits {a b : Byte} (h : ∀ k : Nat, k < 8 → a.getLsbD (7 - k) = b.getLsbD (7 - k)) : a = b := by
  refine BitVec.eq_of_getLsbD_eq fun i hi => ?_
  have hk := h (7 - i) (by omega)
  rwa [show 7 - (7 - i) = i by omega] at hk

theorem rev8_getLsbD (b : Byte) (i : Fin 8) : (rev8 b).getLsbD i = b.getLsbD (7 - i) := by
  have h := byteOfBits_getLsbD (b.getLsbD 0) (b.getLsbD 1) (b.getLsbD 2) (b.getLsbD 3) (b.getLsbD 4) (b.getLsbD 5)
    (b.getLsbD 6) (b.getLsbD 7) (Fin.rev i)
  fin_cases i <;> exact h

theorem rev8_rev8 (b : Byte) : rev8 (rev8 b) = b :=
  byte_eq_of_bits fun k hk => by
    rw [rev8_getLsbD (rev8 b) ⟨7 - k, by omega⟩, show 7 - (7 - k) = k by omega, rev8_getLsbD b ⟨k, hk⟩]

/-- Settles O6: the bit law is that of `byteOfBits`, and it gives the involution. -/
theorem bitReversalLaws : Obligations.BitReversalLaws :=
  ⟨rev8_getLsbD, rev8_rev8, rfl, rfl, rfl, rfl, rfl, rfl, rfl, rfl, rfl⟩

/-! ### A transfer -/

/-- The first sample is the top bit (40_transport R84). -/
theorem sampledByte_getLsbD (s : State) (n : Nat) {k : Nat} (hk : k < 8) :
    (sampledByte s n).getLsbD (7 - k) = sample s (n + k) := by
  rw [sampledByte, byteOfBits_getLsbD _ _ _ _ _ _ _ _ ⟨k, hk⟩]
  match k, hk with
  | 0, _ | 1, _ | 2, _ | 3, _ | 4, _ | 5, _ | 6, _ | 7, _ => rfl

/-- MOSI carries the byte sent, most significant bit first (20_memory R43). -/
theorem mosiLevels_byteEvents (T : Nat) (s : State) (k : Nat) (b : Byte) :
    mosiLevels (byteEvents T s k b) = levelsOf [b] := by
  simp [byteEvents, levelsOf, List.range_succ, cellEvents, mosiLevels]

theorem wireBytes_byteEvents (T : Nat) (s : State) (k : Nat) (b : Byte) :
    wireBytes (mosiLevels (byteEvents T s k b)) = [b] := by
  rw [mosiLevels_byteEvents, wireBytes_levelsOf]

theorem newEvents_afterTransfer (T : Nat) (out : Byte) (s : State) :
    newEvents s (afterTransfer T out s) = byteEvents T s 0 out :=
  (recorded_transfer T out s).newEvents

/-- Settles O7: the result is the byte of the eight samples, and the state after is that of `afterTransfer`. -/
theorem transferLaws : Obligations.TransferLaws := by
  intro T out s
  have hbit : ∀ (u : State) (k : Nat), k < 8 → (sampledByte u 0).getLsbD (7 - k) = sample u k := fun u k hk => by
    rw [sampledByte_getLsbD u 0 hk, Nat.zero_add]
  simp only [transfer_eq, newEvents_afterTransfer]
  refine ⟨hbit s, fun hloop => byte_eq_of_bits fun k hk => ?_, wireBytes_byteEvents T s 0 out,
    fun _ _ s' hsame => byte_eq_of_bits fun k hk => ?_, rfl, rfl, rfl, rfl, byteEvents_length T s 0 out⟩
  · rw [hbit s k hk, hloop k hk]
  · rw [hbit s' k hk, hbit s k hk, hsame k hk]

/-! ### WRITE_COMMAND -/

/-- Settles O9: the request is admitted, and its write frame is the one frame of the command byte and the payload. -/
theorem writeCommandFrame : Obligations.WriteCommandFrame := fun cmd data s hs => by
  rw [exec, execWcmd, whenReady_of_ready hs, memWrite_eq]; rfl

/-! ### What shows but for the samples -/

/-- The events of a transfer, the sampled levels left out. -/
def blindByte (T : Nat) (b : Byte) : List Event :=
  (List.range 8).flatMap fun j => cellEvents T (b.getLsbD (7 - j)) false

/-- The events of a frame, the sampled levels left out. -/
def blindFrame (T : Nat) (cmd : Byte) (data : List Byte) : List Event :=
  .set .csn false :: ((cmd :: data).flatMap (blindByte T) ++ [.set .csn true])

theorem map_blind_byteEvents (T : Nat) (s : State) (k : Nat) (b : Byte) :
    (byteEvents T s k b).map blind = blindByte T b := by
  simp [byteEvents, blindByte, List.map_flatMap, cellEvents, blind]

theorem map_blind_bytesEvents (T : Nat) (s : State) (k : Nat) (bs : List Byte) :
    (bytesEvents T s k bs).map blind = bs.flatMap (blindByte T) := by
  induction bs generalizing k with
  | nil => rfl
  | cons b bs ih => rw [bytesEvents, List.map_append, map_blind_byteEvents, ih, List.flatMap_cons]

theorem map_blind_frameEvents (T : Nat) (cmd : Byte) (data : List Byte) (s : State) :
    (frameEvents T cmd data s).map blind = blindFrame T cmd data := by
  rw [frameEvents, List.map_cons, List.map_append, map_blind_bytesEvents]; rfl

theorem reply_length (s : State) (k n : Nat) : (reply s k n).length = n := by
  induction n generalizing k with
  | zero => rfl
  | succ n ih => rw [reply, List.length_cons, ih]

/-- From `s` to `t` the block shows the events `es`, the samples and the values returned left out. -/
def ShowsFrom (s t : State) (es : List Event) : Prop := t.trace.map blind = s.trace.map blind ++ es

theorem ShowsFrom.trans {s t u : State} {es fs : List Event} (h : ShowsFrom s t es) (k : ShowsFrom t u fs) :
    ShowsFrom s u (es ++ fs) := by
  rw [ShowsFrom, k, h, List.append_assoc]

theorem showsFrom_frame (T : Nat) (cmd : Byte) (data : List Byte) (s : State) :
    ShowsFrom s (afterFrame T cmd data s) (blindFrame T cmd data) := by
  rw [ShowsFrom, afterFrame_trace, List.map_append, map_blind_frameEvents]

theorem showsFrom_transfer (T : Nat) (out : Byte) (s : State) :
    ShowsFrom s (afterTransfer T out s) (blindByte T out) := by
  rw [ShowsFrom, (recorded_transfer T out s).trace, List.map_append, map_blind_byteEvents]

theorem showsFrom_returned (r : Result) (s : State) : ShowsFrom s (returned r s) [blind (.result r)] := by
  rw [ShowsFrom, returned_trace, List.map_append]; rfl

/-- The frames of getDataRate in a form, the sampled levels left out: one, or two that are the same (42_radio_control
R123). -/
def blindGetDataRate (P : Params) : List Event :=
  let once := blindFrame P.tSettle (cmdR (regByte P.regDr)) [0]
  match P.gdrForm with
  | .oneRead => once
  | .readbitHiFirst | .readbitLoFirst => once ++ once

theorem showsFrom_getDataRate (P : Params) (s : State) : ShowsFrom s (afterGetDataRate P s) (blindGetDataRate P) := by
  have once (u : State) := showsFrom_frame P.tSettle (cmdR (regByte P.regDr)) [0] u
  rw [afterGetDataRate, blindGetDataRate]
  match P.gdrForm with
  | .oneRead => exact once s
  | .readbitHiFirst | .readbitLoFirst => exact (once s).trans (once _)

/-- Whatever the slave drives, an instruction that answers a next state shows the events `es`. -/
def Shows (i : Instr) (es : List Event) : Prop := ∀ s t : State, exec i s = .next t → ShowsFrom s t es

/-- An operation whose body is one frame, and that returns nothing, shows that frame. -/
theorem Shows.of_frame {i : Instr} {cmd : Byte} {data : List Byte}
    (hi : ∀ s t, exec i s = .next t → complete (frame Config.params.tSettle cmd data (enter s)).2 = .next t) :
    Shows i (blindFrame Config.params.tSettle cmd data) := fun s t h => by
  have ht := hi s t h
  rw [frame_eq] at ht
  rw [complete_next ht]
  exact showsFrom_frame _ cmd data (enter s)

/-- An operation whose body is one read frame, and that returns a value made of its reply, shows that frame and a
RESULT that does not depend on the reply (40_transport R95). -/
theorem Shows.of_read {i : Instr} {cmd : Byte} {n : Nat} {result : List Byte → Result} {e : Event}
    (hi : ∀ s t, exec i s = .next t →
      ∃ u, u = memRead Config.params.tSettle cmd n (enter s) ∧ complete (respond (result u.1) u.2) = .next t)
    (he : ∀ l, l.length = n → blind (.result (result l)) = e) :
    Shows i (blindFrame Config.params.tSettle cmd (.replicate n 0) ++ [e]) := fun s t h => by
  obtain ⟨u, rfl, ht⟩ := hi s t h
  rw [memRead_eq] at ht
  rw [complete_next ht, ← he _ (reply_length (enter s) 8 n)]
  exact (showsFrom_frame _ cmd _ (enter s)).trans (showsFrom_returned ..)

/-! ### The operations without a read-modify-write -/

theorem whenReady_body {n : Nat} {s t : State} {k : Outcome} (h : whenReady n s k = .next t) : k = .next t :=
  let ⟨_, _, hk⟩ := whenReady_next h; hk

theorem whenReadyCommand_body {c : Byte} {s t : State} {k : Outcome} (h : whenReadyCommand c s k = .next t) :
    k = .next t :=
  let ⟨_, _, hk⟩ := whenReadyCommand_next h; hk

theorem shows_wcmd (cmd : Byte) (data : List Byte) :
    Shows (.wcmd cmd data) (blindFrame Config.params.tSettle cmd data) := .of_frame fun _ _ h => whenReady_body h

theorem shows_wreg (addr value : Byte) :
    Shows (.wreg addr value) (blindFrame Config.params.tSettle (cmdW addr) [value]) :=
  .of_frame fun _ _ h => whenReady_body h

theorem shows_wregn (addr : Byte) (buf : List Byte) (n : Nat) :
    Shows (.wregn addr buf n) (blindFrame Config.params.tSettle (cmdW addr) (buf.take n)) :=
  .of_frame fun _ _ h => by
    have hk := whenReady_body h
    split at hk
    · cases hk
    · exact hk

theorem shows_ch (channel : Byte) :
    Shows (.ch channel) (blindFrame Config.params.tSettle (cmdW (regByte Config.params.regCh)) [channel]) :=
  .of_frame fun _ _ h => whenReady_body h

theorem shows_plw (pipe width : Byte) :
    Shows (.plw pipe width)
      (blindFrame Config.params.tSettle (cmdW (regByte Config.params.rxPw[pipeIndex pipe])) [width]) :=
  .of_frame fun _ _ h => whenReady_body h

theorem shows_rregn (addr : Byte) (n : Nat) :
    Shows (.rregn addr n)
      (blindFrame Config.params.tSettle (cmdR addr) (.replicate n 0) ++ [.result (.bytes (.replicate n 0))]) :=
  .of_read (result := .bytes) (fun _ _ h => ⟨_, rfl, whenReady_body h⟩) fun l hl => by rw [blind, hl]

theorem shows_rreg (addr : Byte) :
    Shows (.rreg addr) (blindFrame Config.params.tSettle (cmdR addr) [0] ++ [.result (.byte 0)]) :=
  .of_read (n := 1) (result := fun l => .byte (l.headD 0)) (fun _ _ h => ⟨_, rfl, whenReady_body h⟩) fun _ _ => rfl

theorem shows_rplw :
    Shows .rplw (blindFrame Config.params.tSettle cmdPayloadWidth [0] ++ [.result (.byte 0)]) :=
  .of_read (n := 1) (result := fun l => .byte (l.headD 0)) (fun _ _ h => ⟨_, rfl, whenReady_body h⟩) fun _ _ => rfl

theorem shows_rpl (n : Nat) :
    Shows (.rpl n)
      (blindFrame Config.params.tSettle cmdPayload (.replicate n 0) ++ [.result (.bytes (.replicate n 0))]) :=
  .of_read (result := .bytes) (fun _ _ h => ⟨_, rfl, whenReady_body h⟩) fun l hl => by rw [blind, hl]

/-- READ_BIT answers a next state for a bit index only, and the frame does not depend on the index. -/
theorem shows_rbit (addr b : Byte) :
    Shows (.rbit addr b) (blindFrame Config.params.tSettle (cmdR addr) [0] ++ [.result (.bit false)]) := fun s t h => by
  obtain ⟨_, -, hk⟩ := withBitPos_next (whenReady_body h)
  rw [readBit_eq] at hk
  rw [complete_next hk]
  exact (showsFrom_frame _ (cmdR addr) [0] (enter s)).trans (showsFrom_returned ..)

theorem shows_gdr : Shows .gdr (blindGetDataRate Config.params ++ [.result (.rate .dr1M)]) := fun s t h => by
  have hk := whenReady_body h
  rw [getDataRate_eq] at hk
  rw [complete_next hk]
  exact (showsFrom_getDataRate Config.params (enter s)).trans (showsFrom_returned ..)

theorem shows_xfer (out : Byte) :
    Shows (.xfer out) (blindByte Config.params.tSettle out ++ [.result (.byte 0)]) := fun s t h => by
  obtain ⟨-, -, -, rfl⟩ := xfer_next h
  exact (showsFrom_transfer _ out (enter s)).trans (showsFrom_returned ..)

/-- A wire command form is one frame, with no RESULT (30_encoding R62 to R65). -/
theorem shows_command {i : Instr} (hi : i.format = .cmd8) :
    ∃ cmd data, Shows i (blindFrame Config.params.tSettle cmd data) := by
  cases i with
  | cmdReadRegister a n => exact ⟨_, .replicate n 0, .of_frame fun _ _ h => whenReadyCommand_body h⟩
  | cmdWriteRegister a data => exact ⟨_, data, .of_frame fun _ _ h => whenReadyCommand_body h⟩
  | cmdReadRxPayloadWidth => exact ⟨_, [0], .of_frame fun _ _ h => whenReadyCommand_body h⟩
  | cmdReadRxPayload n => exact ⟨_, .replicate n 0, .of_frame fun _ _ h => whenReadyCommand_body h⟩
  | _ => cases hi

theorem sameBlock_trace {s t : State} (h : SameBlock s t) : s.trace = t.trace := by
  rw [SameBlock] at h
  have htr := congrArg State.trace h
  exact htr

/-- Two runs of an instruction that shows the same whatever the slave drives. -/
theorem Shows.agree {i : Instr} {es : List Event} (h : Shows i es) {s t s' t' : State} (hst : SameBlock s t)
    (hs : exec i s = .next s') (ht : exec i t = .next t') : s'.trace.map blind = t'.trace.map blind := by
  rw [h s s' hs, h t t' ht, sameBlock_trace hst]

/-- Settles O57: each instruction named shows the same events whatever the slave drives. -/
theorem framesIgnoreSamples : Obligations.FramesIgnoreSamples := by
  intro i s t s' t' hst hi
  suffices ∃ es, Shows i es from let ⟨_, h⟩ := this; h.agree hst
  rcases hi with ⟨c, d, rfl⟩ | ⟨a, n, rfl⟩ | ⟨a, rfl⟩ | ⟨a, l, n, rfl⟩ | ⟨a, v, rfl⟩ | ⟨a, b, rfl⟩ | rfl | ⟨n, rfl⟩
    | ⟨c, rfl⟩ | ⟨p, w, rfl⟩ | rfl | ⟨b, rfl⟩ | hf
  · exact ⟨_, shows_wcmd c d⟩
  · exact ⟨_, shows_rregn a n⟩
  · exact ⟨_, shows_rreg a⟩
  · exact ⟨_, shows_wregn a l n⟩
  · exact ⟨_, shows_wreg a v⟩
  · exact ⟨_, shows_rbit a b⟩
  · exact ⟨_, shows_rplw⟩
  · exact ⟨_, shows_rpl n⟩
  · exact ⟨_, shows_ch c⟩
  · exact ⟨_, shows_plw p w⟩
  · exact ⟨_, shows_gdr⟩
  · exact ⟨_, shows_xfer b⟩
  · obtain ⟨_, _, hs⟩ := shows_command hf
    exact ⟨_, hs⟩

end Sys2Proof.Proofs
end

section
/-! PROOFS. Register access. On a ready block each request is one frame, or the two of a read-modify-write, and its state and
RESULT are given in full. What it shows is said once (`Performs`): the counts of 41_register_access R112 are read off it, and two
requests in a row show the frames of both, which a slave that is a register file answers (41_register_access R107). -/

namespace Sys2Proof.Proofs

open Sys2Proof.Machine Sys2Proof.Safety Sys2Proof.Laws

/-! ### Reads and writes -/

/-- Settles O11: the reply of the read frame is the RESULT. -/
theorem readRegisterNResult : Obligations.ReadRegisterNResult := fun addr len _ hs => exec_rregn_of_ready hs addr len

/-- Settles O12: the reply of one byte is the byte sampled. -/
theorem readRegisterResult : Obligations.ReadRegisterResult := fun addr _ hs => exec_rreg_of_ready hs addr

/-- A buffer shorter than the length is refused (30_encoding R74). -/
theorem exec_wregn_of_short {s : State} (hs : Ready s) {buf : List Byte} {len : Nat} (hl : buf.length < len)
    (addr : Byte) : exec (.wregn addr buf len) s = .refused .shortBuffer := by
  rw [exec, execWregn, whenReady_of_ready hs, if_pos hl]

/-- Settles O13: the buffer holds `len` bytes, or it is short. -/
theorem writeRegisterNFrame : Obligations.WriteRegisterNFrame := fun addr _ _ _ hs =>
  ⟨fun hl => exec_wregn_of_ready hs hl addr, fun hl => exec_wregn_of_short hs hl addr⟩

/-- Settles O14: the write frame of one byte. -/
theorem writeRegisterFrame : Obligations.WriteRegisterFrame := fun addr value _ hs => exec_wreg_of_ready hs addr value

/-- Settles O17: the read frames of the two special commands. -/
theorem payloadReadResults : Obligations.PayloadReadResults := fun len _ hs =>
  ⟨exec_rplw_of_ready hs, exec_rpl_of_ready hs len⟩

/-! ### Bits -/

/-- A bit index up to 7 is a bit position (60_exceptions R141). -/
theorem withBitPos_of_le {b : Byte} (hb : b.toNat ≤ 7) (k : BitPos → Outcome) :
    withBitPos b k = k ⟨b.toNat, Nat.lt_succ_of_le hb⟩ := by
  rw [withBitPos, bitPos_some b hb]

theorem exec_setb_of_ready {s : State} (hs : Ready s) {b : Byte} (hb : b.toNat ≤ 7) (addr : Byte) :
    exec (.setb addr b) s
      = .next (ended (afterRmw Config.params.tSettle addr (fun v => v ||| (1 : Byte) <<< b.toNat) (enter s))) := by
  rw [exec, execSetb, whenReady_of_ready hs, withBitPos_of_le hb, setBit_eq]; rfl

theorem exec_clrb_of_ready {s : State} (hs : Ready s) {b : Byte} (hb : b.toNat ≤ 7) (addr : Byte) :
    exec (.clrb addr b) s
      = .next (ended (afterRmw Config.params.tSettle addr (fun v => v &&& ~~~((1 : Byte) <<< b.toNat)) (enter s))) := by
  rw [exec, execClrb, whenReady_of_ready hs, withBitPos_of_le hb, clearBit_eq]; rfl

theorem exec_rbit_of_ready {s : State} (hs : Ready s) {b : Byte} (hb : b.toNat ≤ 7) (addr : Byte) :
    exec (.rbit addr b) s
      = .next (ended (returned (.bit ((sampledByte s 8).getLsbD b.toNat))
          (afterRead Config.params.tSettle addr 1 (enter s)))) := by
  simp only [exec, execRbit, whenReady_of_ready hs, withBitPos_of_le hb, readBit_eq, testBitIn_eq, sampledByte_enter]; rfl

/-- Settles O15: the read-modify-write of the mask of the bit index. -/
theorem setClearBitTwoFrames : Obligations.SetClearBitTwoFrames := fun addr _ _ hs hb =>
  ⟨exec_setb_of_ready hs hb addr, exec_clrb_of_ready hs hb addr⟩

/-- Settles O16: the test of the mask of the bit index is that bit. -/
theorem readBitResult : Obligations.ReadBitResult := fun addr _ _ hs hb => exec_rbit_of_ready hs hb addr

/-! ### What a request shows -/

/-- The instruction takes a ready block from `s` to `t`, ready again, and what it adds to the trace is that many events, in
which a bus monitor reads the given frames. -/
structure Performs (i : Instr) (s t : State) (frames : List (List Byte)) (events : Nat) : Prop where
  runs : exec i s = .next t
  ready : Ready t
  did : ∃ ok es, Did Config.params.tSettle ok s t es ∧ framesOf es = frames ∧ es.length = events

theorem Performs.of_ran {i : Instr} {s u : State} {ok : Event → Bool} {es : List Event} (hs : Ready s)
    (hr : Ran Config.params.tSettle ok (enter s) u es) (h : exec i s = .next (ended u)) :
    Performs i s (ended u) (framesOf es) es.length :=
  ⟨h, ⟨rfl, hr.bound.trans hs.2⟩, ok, es, hr.did, rfl, rfl⟩

/-- A request that is one frame and returns nothing (40_transport R93). -/
theorem Performs.of_frame {i : Instr} {s : State} {cmd : Byte} {data : List Byte} (hs : Ready s)
    (h : exec i s = .next (ended (afterFrame Config.params.tSettle cmd data (enter s)))) :
    Performs i s (ended (afterFrame Config.params.tSettle cmd data (enter s))) [cmd :: data]
      (2 + 56 * (data.length + 1)) := by
  have hp := Performs.of_ran hs (ran_frame _ cmd data (enter s)) h
  rwa [framesOf_frame, frameEvents_length] at hp

/-- A request that is one read frame and returns a value: the RESULT is one event more, and no frame. -/
theorem Performs.of_read {i : Instr} {s : State} {cmd : Byte} {n : Nat} {r : Result} (hs : Ready s)
    (h : exec i s = .next (ended (returned r (afterRead Config.params.tSettle cmd n (enter s))))) :
    Performs i s (ended (returned r (afterRead Config.params.tSettle cmd n (enter s)))) [cmd :: .replicate n 0]
      (2 + 56 * (n + 1) + 1) := by
  have hf := ran_frame Config.params.tSettle cmd (.replicate n 0) (enter s)
  have hr := (hf.mono (ok' := fun _ => true) fun _ _ => rfl).trans ((ran_result _ r _).mono fun _ _ => rfl)
  have hp := Performs.of_ran hs hr h
  rw [hf.framesOf_append, framesOf_frame, List.length_append, frameEvents_length, List.length_replicate] at hp
  exact hp

/-- A request that is one read-modify-write (41_register_access R105). -/
theorem Performs.of_rmw {i : Instr} {s : State} {addr : Byte} {f : Byte → Byte} (hs : Ready s)
    (h : exec i s = .next (ended (afterRmw Config.params.tSettle addr f (enter s)))) :
    Performs i s (ended (afterRmw Config.params.tSettle addr f (enter s)))
      [[cmdR addr, 0], [cmdW addr, f (sampledByte s 8)]] 228 := by
  obtain ⟨es, hr, hf, -, hl⟩ := ran_rmw Config.params.tSettle addr f (enter s)
  have hp := Performs.of_ran hs hr h
  rwa [hf, hl, sampledByte_enter] at hp

/-! ### Counts -/

theorem Performs.counts {i : Instr} {s t : State} {frames : List (List Byte)} {events : Nat}
    (h : Performs i s t frames events) :
    ∃ t, exec i s = .next t ∧ (framesOf (newEvents s t)).length = frames.length
      ∧ (newEvents s t).length = events := by
  obtain ⟨he, -, _, es, hd, rfl, rfl⟩ := h
  exact ⟨t, he, by rw [hd.newEvents], by rw [hd.newEvents]⟩

/-- Settles O55: each request is one frame, one read frame and a RESULT, or one read-modify-write. -/
theorem eventCounts : Obligations.EventCounts := by
  intro s addr value b buf n hs hb
  refine ⟨(Performs.of_read hs (exec_rregn_of_ready hs addr n)).counts,
    (Performs.of_read hs (exec_rreg_of_ready hs addr)).counts, fun hn => ?_,
    (Performs.of_frame hs (exec_wreg_of_ready hs addr value)).counts,
    (Performs.of_rmw hs (exec_setb_of_ready hs hb addr)).counts,
    (Performs.of_rmw hs (exec_clrb_of_ready hs hb addr)).counts,
    (Performs.of_read hs (exec_rbit_of_ready hs hb addr)).counts,
    (Performs.of_read hs (exec_rplw_of_ready hs)).counts, (Performs.of_read hs (exec_rpl_of_ready hs n)).counts⟩
  have hc := (Performs.of_frame hs (exec_wregn_of_ready hs hn addr)).counts
  rwa [List.length_take_of_le hn] at hc

/-! ### The passive register file -/

/-- Two requests in a row show the frames of both. -/
theorem Performs.framesOf_append {i j : Instr} {s t u : State} {fs gs : List (List Byte)} {m n : Nat}
    (h : Performs i s t fs m) (k : Performs j t u gs n) : framesOf (newEvents s u) = fs ++ gs := by
  obtain ⟨-, -, _, es, hd, rfl, -⟩ := h
  obtain ⟨-, -, _, es', kd, rfl, -⟩ := k
  have htrace : u.trace = s.trace ++ (es ++ es') := by rw [kd.trace, hd.trace, List.append_assoc]
  rw [newEvents_of htrace]
  exact hd.frames es'

/-- F1 drives the first byte of the register while one is read (95_test_vectors, F1). -/
theorem answer_read (m : PassiveFile) (a : RegAddr) :
    m.answer (cmdR (regByte a)) 1 = [0, (m.read a).getD 0 0] := by
  simp [PassiveFile.answer, commandForm_read]

theorem answer_write (m : PassiveFile) (a : RegAddr) : m.answer (cmdW (regByte a)) 1 = [0, 0] := by
  simp [PassiveFile.answer, commandForm_write]

theorem after_read (m : PassiveFile) (a : RegAddr) (data : List Byte) : m.after (cmdR (regByte a)) data = m := by
  simp [PassiveFile.after, commandForm_read]

/-- A register holds what was last written to it. -/
theorem read_after_write (m : PassiveFile) (a : RegAddr) (v : Byte) :
    (m.after (cmdW (regByte a)) [v]).read a = [v] := by
  simp [PassiveFile.after, PassiveFile.read, commandForm_write]

theorem answers_write_read (m : PassiveFile) (a : RegAddr) (v : Byte) :
    m.answers [[cmdW (regByte a), v], [cmdR (regByte a), 0]] = [0, 0, 0, v] := by
  simp [PassiveFile.answers, answer_read, answer_write, read_after_write]

theorem answers_rmw_read (m : PassiveFile) (a : RegAddr) (v : Byte) :
    m.answers [[cmdR (regByte a), 0], [cmdW (regByte a), v], [cmdR (regByte a), 0]]
      = [0, (m.read a).getD 0 0, 0, 0, 0, v] := by
  simp [PassiveFile.answers, answer_read, answer_write, after_read, read_after_write]

/-- Byte `j` that F1 drives is the byte sampled at its place. -/
theorem sampledByte_of_drives {m : PassiveFile} {s : State} {frames : List (List Byte)} (h : DrivesPassive m s frames)
    (j : Nat) {b : Byte} (hb : (m.answers frames)[j]? = some b) : sampledByte s (8 * j) = b :=
  sampledByte_of_levels _ s h j b hb

@[simp] theorem sampledByte_ended (s : State) (k : Nat) : sampledByte (ended s) k = sampledByte s k := rfl

/-- A read-modify-write takes the samples of two frames of two bytes. -/
@[simp] theorem sampledByte_afterRmw (T : Nat) (addr : Byte) (f : Byte → Byte) (s : State) (k : Nat) :
    sampledByte (afterRmw T addr f s) k = sampledByte s (32 + k) := by
  rw [afterRmw, afterRead, sampledByte_afterFrame, sampledByte_afterFrame, ← Nat.add_assoc]; rfl

theorem lastEvent_returned (r : Result) (s : State) : lastEvent? (ended (returned r s)) = some (.result r) := by
  simp [lastEvent?]

/-- READ_REGISTER after WRITE_REGISTER returns the value (41_register_access R107 item 1). -/
theorem write_then_read (a : RegAddr) (v : Byte) (m : PassiveFile) {s : State} (hs : Ready s) :
    ∃ t u, exec (.wreg (regByte a) v) s = .next t ∧ exec (.rreg (regByte a)) t = .next u
      ∧ (DrivesPassive m s (framesOf (newEvents s u)) → lastEvent? u = some (.result (.byte v))) := by
  have hw := Performs.of_frame hs (exec_wreg_of_ready hs (regByte a) v)
  have hr := Performs.of_read hw.ready (exec_rreg_of_ready hw.ready (regByte a))
  refine ⟨_, _, hw.runs, hr.runs, fun hd => ?_⟩
  rw [hw.framesOf_append hr] at hd
  have hv : sampledByte s (8 * ([v].length + 1) + 8) = v :=
    sampledByte_of_drives hd 3 (congrArg (·[3]?) (answers_write_read m a v))
  rw [lastEvent_returned, sampledByte_ended, sampledByte_afterFrame, sampledByte_enter, hv]

/-- READ_BIT after a read-modify-write returns the bit of the changed byte of the file (41_register_access R107 items 2
to 4). -/
theorem rmw_then_readBit (a : RegAddr) (b : Byte) (m : PassiveFile) {s : State} {i : Instr} {f : Byte → Byte}
    (hs : Ready s) (hb : b.toNat ≤ 7)
    (hi : exec i s = .next (ended (afterRmw Config.params.tSettle (regByte a) f (enter s)))) :
    ∃ t u, exec i s = .next t ∧ exec (.rbit (regByte a) b) t = .next u
      ∧ (DrivesPassive m s (framesOf (newEvents s u)) →
          lastEvent? u = some (.result (.bit ((f ((m.read a).getD 0 0)).getLsbD b.toNat)))) := by
  have hw := Performs.of_rmw hs hi
  have hr := Performs.of_read hw.ready (exec_rbit_of_ready hw.ready hb (regByte a))
  refine ⟨_, _, hw.runs, hr.runs, fun hd => ?_⟩
  rw [hw.framesOf_append hr] at hd
  have hans := answers_rmw_read m a (f (sampledByte s 8))
  have hold : sampledByte s 8 = (m.read a).getD 0 0 := sampledByte_of_drives hd 1 (congrArg (·[1]?) hans)
  have hnew : sampledByte s 40 = f (sampledByte s 8) := sampledByte_of_drives hd 5 (congrArg (·[5]?) hans)
  rw [lastEvent_returned, sampledByte_ended, sampledByte_afterRmw, sampledByte_enter, hnew, hold]

/-! ### One bit of a byte -/

/-- A bit position given as a bit index. -/
theorem bitPos_toNat (i : BitPos) : (BitVec.ofNat 8 i).toNat = i := by
  rw [BitVec.toNat_ofNat]; omega

theorem bitPos_toNat_le (i : BitPos) : (BitVec.ofNat 8 i).toNat ≤ 7 := by
  rw [bitPos_toNat]; omega

/-- The mask of bit `i` has bit `i` and no other (30_encoding R70). -/
theorem mask_getLsbD (i j : BitPos) : ((1 : Byte) <<< i.val).getLsbD j = decide (j = i) := by
  revert i j; decide

theorem set_getLsbD (v : Byte) (i j : BitPos) :
    (v ||| (1 : Byte) <<< i.val).getLsbD j = (v.getLsbD j || decide (j = i)) := by
  rw [BitVec.getLsbD_or, mask_getLsbD]

theorem clear_getLsbD (v : Byte) (i j : BitPos) :
    (v &&& ~~~((1 : Byte) <<< i.val)).getLsbD j = (v.getLsbD j && !decide (j = i)) := by
  rw [BitVec.getLsbD_and, BitVec.getLsbD_not, mask_getLsbD, decide_eq_true j.isLt, Bool.true_and]

/-- READ_BIT after SET_BIT: the bit set reads 1, and any other as the file had it. -/
theorem setb_then_readBit (a : RegAddr) (i j : BitPos) (m : PassiveFile) {s : State} (hs : Ready s) :
    ∃ t u, exec (.setb (regByte a) (BitVec.ofNat 8 i)) s = .next t
      ∧ exec (.rbit (regByte a) (BitVec.ofNat 8 j)) t = .next u
      ∧ (DrivesPassive m s (framesOf (newEvents s u)) →
          lastEvent? u = some (.result (.bit (((m.read a).getD 0 0).getLsbD j || decide (j = i))))) := by
  have h := rmw_then_readBit a (BitVec.ofNat 8 j) m hs (bitPos_toNat_le j)
    (exec_setb_of_ready hs (bitPos_toNat_le i) (regByte a))
  rwa [bitPos_toNat, bitPos_toNat, set_getLsbD] at h

/-- READ_BIT after CLEAR_BIT: the bit cleared reads 0, and any other as the file had it. -/
theorem clrb_then_readBit (a : RegAddr) (i j : BitPos) (m : PassiveFile) {s : State} (hs : Ready s) :
    ∃ t u, exec (.clrb (regByte a) (BitVec.ofNat 8 i)) s = .next t
      ∧ exec (.rbit (regByte a) (BitVec.ofNat 8 j)) t = .next u
      ∧ (DrivesPassive m s (framesOf (newEvents s u)) →
          lastEvent? u = some (.result (.bit (((m.read a).getD 0 0).getLsbD j && !decide (j = i))))) := by
  have h := rmw_then_readBit a (BitVec.ofNat 8 j) m hs (bitPos_toNat_le j)
    (exec_clrb_of_ready hs (bitPos_toNat_le i) (regByte a))
  rwa [bitPos_toNat, bitPos_toNat, clear_getLsbD] at h

/-- Settles O59: what F1 drives last is the value written, or the changed byte. -/
theorem passiveRegisterLaws : Obligations.PassiveRegisterLaws := by
  intro a i v m s hs
  refine ⟨write_then_read a v m hs, ?_, ?_, fun set j hj => ?_⟩
  · simpa using setb_then_readBit a i i m hs
  · simpa using clrb_then_readBit a i i m hs
  · cases set with
    | true => simpa [hj] using setb_then_readBit a i j m hs
    | false => simpa [hj] using clrb_then_readBit a i j m hs

end Sys2Proof.Proofs
end

section
/-! PROOFS. Radio control and receive. On a ready block each request is the operation of its name, whose state the laws of
Laws/Radio.lean give; a field put in a byte has its code and leaves the other bits; POLL has ended, or stands at NOTIFY with
the block ready, and the handler's return goes on with the clear. -/

namespace Sys2Proof.Proofs

open Sys2Proof.Machine Sys2Proof.Safety Sys2Proof.Laws

/-! ### The requests that are one frame or one read-modify-write -/

theorem complete_eq (s : State) : complete s = .next (ended s) := rfl

theorem exec_pwrup_of_ready {s : State} (hs : Ready s) :
    exec .pwrup s
      = .next (ended (afterRmw Config.params.tSettle (regByte Config.params.regConfig)
          (fun v => v ||| mask Config.params.bitPwr) (enter s))) := by
  rw [exec, execPwrup, whenReady_of_ready hs, powerUp, setBit_eq, complete_eq]

theorem exec_pwrdn_of_ready {s : State} (hs : Ready s) :
    exec .pwrdn s
      = .next (ended (afterRmw Config.params.tSettle (regByte Config.params.regConfig)
          (fun v => v &&& ~~~(mask Config.params.bitPwr)) (enter s))) := by
  rw [exec, execPwrdn, whenReady_of_ready hs, shutDown, clearBit_eq, complete_eq]

/-- Settles O19: the set and the clear of the power bit. -/
theorem powerBitCommands : Obligations.PowerBitCommands := fun _ hs =>
  ⟨exec_pwrup_of_ready hs, exec_pwrdn_of_ready hs⟩

/-- Settles O20: `setModeRX_eq` has the three parts in their order. -/
theorem setModeRxSequence : Obligations.SetModeRxSequence := fun s hs => by
  rw [exec, execRxmode, whenReady_of_ready hs, setModeRX_eq, complete_eq]

/-- Settles O21: the write frame of the channel register. -/
theorem setChannelFrame : Obligations.SetChannelFrame := fun channel s hs => by
  rw [exec, execCh, whenReady_of_ready hs, setCh, writeRegister_eq, complete_eq]

theorem exec_dynackOn_of_ready {s : State} (hs : Ready s) :
    exec .dynackOn s
      = .next (ended (afterRmw Config.params.tSettle (regByte Config.params.regDynack)
          (fun v => v ||| mask Config.params.bitDynack) (enter s))) := by
  rw [exec, execDynackOn, whenReady_of_ready hs, enableDynAck, setBit_eq, complete_eq]

theorem exec_dynackOff_of_ready {s : State} (hs : Ready s) :
    exec .dynackOff s
      = .next (ended (afterRmw Config.params.tSettle (regByte Config.params.regDynack)
          (fun v => v &&& ~~~(mask Config.params.bitDynack)) (enter s))) := by
  rw [exec, execDynackOff, whenReady_of_ready hs, disableDynAck, clearBit_eq, complete_eq]

/-- Settles O25: the set and the clear of the dynamic-ack bit. -/
theorem dynAckCommands : Obligations.DynAckCommands := fun _ hs =>
  ⟨exec_dynackOn_of_ready hs, exec_dynackOff_of_ready hs⟩

theorem exec_plw_of_ready {s : State} (hs : Ready s) (pipe width : Byte) :
    exec (.plw pipe width) s
      = .next (ended (afterFrame Config.params.tSettle
          (cmdW (regByte Config.params.rxPw[pipeIndex pipe])) [width] (enter s))) := by
  rw [exec, execPlw, whenReady_of_ready hs, setRxPayloadWidth, writeRegister_eq, complete_eq]

/-- Settles O26: the frame depends on the pipe by its index only, and that of pipes 8 and 2 is 2 (42_radio_control R129). -/
theorem payloadWidthPipeModulo : Obligations.PayloadWidthPipeModulo := fun pipe width _ hs =>
  ⟨exec_plw_of_ready hs pipe width, (exec_plw_of_ready hs 8 width).trans (exec_plw_of_ready hs 2 width).symm⟩

/-- A CRC size of at most 2 is admitted (60_exceptions R142). -/
theorem exec_crc_of_le {s : State} (hs : Ready s) {n : Byte} (hn : n.toNat ≤ 2) :
    exec (.crc n) s = .next (ended (setCRCSize Config.params ⟨n.toNat, Nat.lt_succ_of_le hn⟩ (enter s))) := by
  rw [exec, execCrc, whenReady_of_ready hs, dif_pos (Nat.lt_succ_of_le hn), complete_eq]

theorem exec_crc_of_gt {s : State} (hs : Ready s) {n : Byte} (hn : 2 < n.toNat) :
    exec (.crc n) s = .refused .crcSize := by
  rw [exec, execCrc, whenReady_of_ready hs, dif_neg (Nat.not_lt.mpr hn)]

/-- Settles O24: the three sizes that are admitted are the cases of `setCRCSize`. -/
theorem setCrcSizeCases : Obligations.SetCrcSizeCases := by
  intro n s hs
  refine ⟨?_, ?_, ?_, exec_crc_of_gt hs⟩
  · rintro rfl
    rw [exec_crc_of_le hs (by decide), ← clearBit_eq]; rfl
  · rintro rfl
    rw [exec_crc_of_le hs (by decide)]; rfl
  · rintro rfl
    rw [exec_crc_of_le hs (by decide), ← setBit_eq]; rfl

/-! ### The data rate -/

theorem params_bitDr_ne : Config.params.bitDrHi ≠ Config.params.bitDrLo := by
  have h := params_wf
  simp only [Params.wf, Bool.and_eq_true, bne_iff_ne] at h
  obtain ⟨⟨-, hne⟩, -⟩ := h
  exact hne

/-- A bit put at a level is at that level, and every other bit is as it was (42_radio_control R121). -/
theorem putBitIn_getLsbD (v : Byte) (i : BitPos) (level : Bool) (j : BitPos) :
    (putBitIn v i level).getLsbD j = if j = i then level else v.getLsbD j := by
  cases level with
  | true =>
    have hset : (putBitIn v i true).getLsbD j = (v.getLsbD j || decide (j = i)) := set_getLsbD v i j
    rw [hset]
    by_cases h : j = i <;> simp [h]
  | false =>
    have hclear : (putBitIn v i false).getLsbD j = (v.getLsbD j && !decide (j = i)) := clear_getLsbD v i j
    rw [hclear]
    by_cases h : j = i <;> simp [h]

/-- The mask of bit `i`, or nothing, by a level. -/
theorem maskIf_getLsbD (level : Bool) (i j : BitPos) :
    (if level then mask i else 0).getLsbD j = (level && decide (j = i)) := by
  cases level with
  | true => exact mask_getLsbD i j
  | false => exact BitVec.getLsbD_zero

/-- Both bits of the field put at once are at their levels, and every other bit is as it was (42_radio_control R121). -/
theorem putRateIn_getLsbD (v : Byte) {hiBit loBit : BitPos} (hne : hiBit ≠ loBit) (hi lo : Bool) (j : BitPos) :
    (putRateIn v hiBit loBit hi lo).getLsbD j
      = if j = hiBit then hi else if j = loBit then lo else v.getLsbD j := by
  have hmask (i : BitPos) : (mask i).getLsbD j = decide (j = i) := mask_getLsbD i j
  rw [putRateIn, BitVec.getLsbD_or, BitVec.getLsbD_or, BitVec.getLsbD_and, BitVec.getLsbD_not, BitVec.getLsbD_or,
    maskIf_getLsbD, maskIf_getLsbD, hmask, hmask, decide_eq_true j.isLt]
  by_cases hh : j = hiBit
  · simp [hh, hne]
  · by_cases hl : j = loBit <;> simp [hh, hl, hne.symm]

/-- Settles O22: the frames are those of `setDataRate_eq`, and the bits of what they write those of the two puts. -/
theorem setDataRateForms : Obligations.SetDataRateForms := by
  intro rate s hs
  refine ⟨?_, ?_, ?_, ?_, fun v => ⟨?_, ?_, fun j hh hl => ?_⟩, fun v i level => ⟨?_, fun j hj => ?_⟩⟩
  · rw [exec, execDr, whenReady_of_ready hs, setDataRate_eq, complete_eq]
  · rintro rfl; rfl
  · rintro rfl; rfl
  · rintro rfl; rfl
  · rw [putRateIn_getLsbD v params_bitDr_ne, if_pos rfl]
  · rw [putRateIn_getLsbD v params_bitDr_ne, if_neg params_bitDr_ne.symm, if_pos rfl]
  · rw [putRateIn_getLsbD v params_bitDr_ne, if_neg hh, if_neg hl]
  · rw [putBitIn_getLsbD, if_pos rfl]
  · rw [putBitIn_getLsbD, if_neg hj]

/-- Settles O23: the rate and the frames are those of `getDataRate_eq`. -/
theorem getDataRateForms : Obligations.GetDataRateForms := by
  intro s hs
  refine ⟨?_, rfl, rfl, rfl, rfl⟩
  rw [exec, execGdr, whenReady_of_ready hs, getDataRate_eq, rateRead_enter]
  rfl

/-! ### The receive requests -/

theorem ifIdle_of_idle {s : State} (hi : s.busy = false) (k : Outcome) : ifIdle s k = k := by
  rw [ifIdle, hi]; rfl

/-- Settles O27: the request needs an idle block only, and its body is the write of the slot. -/
theorem handlerRegistration : Obligations.HandlerRegistration := fun _ _ hi => ifIdle_of_idle hi _

/-- The read frame of the status register that opens POLL (42_radio_control R132). -/
def pollRead (s : State) : State :=
  afterRead Config.params.tSettle (cmdR (regByte Config.params.regStatus)) 1 (enter s)

theorem exec_poll_of_ready {s : State} (hs : Ready s) :
    exec .poll s = poll Config.params (enter s) := by
  rw [exec, execPoll, whenReady_of_ready hs]

/-- POLL of a ready block with the data-ready bit clear is its read frame (42_radio_control R132). -/
theorem exec_poll_of_notReady {s : State} (hs : Ready s)
    (hb : (sampledByte s 8).getLsbD Config.params.bitRxReady = false) :
    exec .poll s = .next (ended (pollRead s)) := by
  simp only [exec_poll_of_ready hs, poll, readBit_eq, testBitIn_eq, sampledByte_enter, hb, Bool.false_eq_true, if_false]
  rfl

/-- With the bit set and a handler in the slot it stands at NOTIFY, idle, with the window open (42_radio_control R133). -/
theorem exec_poll_of_handler {s : State} {h : Handler} (hs : Ready s)
    (hb : (sampledByte s 8).getLsbD Config.params.bitRxReady = true) (hh : s.rxHandler = some h) :
    exec .poll s = .next (ended { pollRead s with
      trace := (pollRead s).trace ++ [.notify h]
      pc := (pollRead s).pc + 1
      windows := ((pollRead s).pc + 1) :: s.windows }) := by
  simp only [exec_poll_of_ready hs, poll, readBit_eq, testBitIn_eq, sampledByte_enter, hb, if_true, afterRead,
    afterFrame_rxHandler, enter_rxHandler, hh]
  rfl

/-- With the bit set and no handler the clear follows at once (42_radio_control R132). -/
theorem exec_poll_of_noHandler {s : State} (hs : Ready s)
    (hb : (sampledByte s 8).getLsbD Config.params.bitRxReady = true) (hh : s.rxHandler = none) :
    exec .poll s = .next (ended (afterClear Config.params (pollRead s))) := by
  simp only [exec_poll_of_ready hs, poll, readBit_eq, testBitIn_eq, sampledByte_enter, hb, if_true, afterRead,
    afterFrame_rxHandler, enter_rxHandler, hh, clearReady_eq]
  rfl

/-- Settles O28: the bit read, and then the handler slot, select the branch of `poll`. -/
theorem pollCases : Obligations.PollCases := by
  intro s hs
  cases hb : (sampledByte s 8).getLsbD Config.params.bitRxReady with
  | false => exact exec_poll_of_notReady hs hb
  | true =>
    cases hh : s.rxHandler with
    | some h => exact exec_poll_of_handler hs hb hh
    | none => exact exec_poll_of_noHandler hs hb hh

theorem step_handlerReturn {s : State} {rest : List HostInput} (hs : s.inbox = .handlerReturn :: rest) :
    step s = returnFromHandler { s with inbox := rest } := by
  simp [step, hs, fetch]

/-- The handler's return with a window open (42_radio_control R133). -/
theorem resumePoll_of_window (P : Params) {s : State} {pc : Nat} {outer : List Nat} (hi : s.busy = false)
    (hw : s.windows = pc :: outer) :
    resumePoll P s = .next (ended (afterClear P { s with windows := outer, busy := true, pc := pc })) := by
  simp only [resumePoll, ifIdle_of_idle hi, hw, clearReady_eq, complete_eq]

/-- Settles O29: the step is the resumed poll, with the item taken. -/
theorem handlerReturnClears : Obligations.HandlerReturnClears := fun s _ _ hi hw =>
  ⟨fun rest hs => (step_handlerReturn hs).trans
      (resumePoll_of_window (s := { s with inbox := rest }) Config.params hi hw),
    fun P => resumePoll_of_window P hi hw⟩

/-- POLL leaves a ready block ready, with its NOTIFY window open or not (42_radio_control R133). -/
theorem poll_ready {s t : State} (hs : Ready s) (h : exec .poll s = .next t) : Ready t := by
  obtain ⟨hk, -⟩ := exec_keepsBinding (fun _ hp => by cases hp) h
  obtain ⟨_, hr⟩ := exec_recorded h
  exact ⟨hr.busy, hk.bound.trans hs.2⟩

/-- Settles O31: the block is ready inside the window, and there the three requests complete as on any ready block. -/
theorem notifyWindowAdmits : Obligations.NotifyWindowAdmits := fun _ _ hs h _ =>
  have ht := poll_ready hs h
  ⟨ht, ⟨_, exec_rplw_of_ready ht⟩, fun len => ⟨_, exec_rpl_of_ready ht len⟩, ⟨_, pollCases _ ht⟩⟩

/-! ### Chip-enable -/

/-- Settles O51: chip-enable is none of the kinds that the others record, and the last that the two writers do. -/
theorem chipEnableWriters : Obligations.ChipEnableWriters := by
  refine ⟨fun i s t hi hp h => ?_, fun s t h => ?_, fun s t h => ?_, fun pins s t h => ?_⟩
  · obtain ⟨_, hr⟩ := exec_recorded h
    have hce := recordable_ce hi hp
    exact ⟨hr.recorded.latch_eq (p := .ce) hce, fun l => hr.recorded.notMem (hce l)⟩
  · obtain ⟨⟨_, hr⟩, -⟩ := return_recorded h
    exact ⟨hr.latch_eq (p := .ce) fun _ => rfl, fun _ => hr.notMem rfl⟩
  · rw [complete_next (whenReady_body h), setModeRX_eq, ended_ce, afterCe_ce]
  · obtain ⟨-, -, -, rfl⟩ := begin_next h
    rfl

/-! ### The frames of an operation, and poll's clear -/

theorem framesOf_afterFrame (T : Nat) (cmd : Byte) (data : List Byte) (s : State) :
    framesOf (newEvents s (afterFrame T cmd data s)) = [cmd :: data] := by
  rw [(ran_frame T cmd data s).newEvents, framesOf_frame]

theorem framesOf_afterRead (T : Nat) (cmd : Byte) (n : Nat) (s : State) :
    framesOf (newEvents s (afterRead T cmd n s)) = [cmd :: .replicate n 0] := framesOf_afterFrame T cmd _ s

theorem framesOf_afterRmw (T : Nat) (addr : Byte) (f : Byte → Byte) (s : State) :
    framesOf (newEvents s (afterRmw T addr f s)) = [[cmdR addr, 0], [cmdW addr, f (sampledByte s 8)]] := by
  obtain ⟨_, hr, hf, -⟩ := ran_rmw T addr f s
  rw [hr.newEvents, hf]

theorem framesOf_clearReady_write {P : Params} (hf : P.pollClearForm = .clearByWrite) (s : State) :
    framesOf (newEvents s (clearReady P s)) = [[cmdW (regByte P.regStatus), mask P.bitRxReady]] := by
  simp only [clearReady_eq, afterClear, hf, framesOf_afterFrame]

theorem framesOf_clearReady_setbit {P : Params} (hf : P.pollClearForm = .clearBySetbit) (s : State) :
    framesOf (newEvents s (clearReady P s))
      = [[cmdR (regByte P.regStatus), 0], [cmdW (regByte P.regStatus), sampledByte s 8 ||| mask P.bitRxReady]] := by
  simp only [clearReady_eq, afterClear, hf, framesOf_afterRmw]

/-- Settles O30: the frame of the mask, or those of the read-modify-write that sets the bit. -/
theorem clearWritesOne : Obligations.ClearWritesOne := by
  intro P s t
  have hmask (j : BitPos) : (mask P.bitRxReady).getLsbD j = decide (j = P.bitRxReady) := mask_getLsbD _ j
  have hset (j : BitPos) : (sampledByte s 8 ||| mask P.bitRxReady).getLsbD j
      = ((sampledByte s 8).getLsbD j || decide (j = P.bitRxReady)) := set_getLsbD _ _ j
  cases hf : P.pollClearForm with
  | clearByWrite =>
    have hframes := framesOf_clearReady_write hf s
    refine ⟨mask P.bitRxReady, by rw [hframes]; rfl, ?_, fun j hj => ?_, fun _ => hframes, fun h => by cases h⟩
    · rw [hmask, decide_eq_true rfl]
    · rw [hmask, decide_eq_false hj, if_pos rfl]
  | clearBySetbit =>
    have hframes := framesOf_clearReady_setbit hf s
    refine ⟨_, by rw [hframes]; rfl, ?_, fun j hj => ?_, fun h => (by cases h), fun _ => hframes⟩
    · rw [hset, decide_eq_true rfl, Bool.or_true]
    · rw [hset, decide_eq_false hj, Bool.or_false, if_neg (by decide)]

end Sys2Proof.Proofs
end

section
/-! PROOFS. The data-rate law (42_radio_control R124). A slave that is a register file is followed through an operation by the
byte that one of its registers holds: what the byte answers (`Serves`), and what it becomes (`Updates`). -/

namespace Sys2Proof.Proofs

open Sys2Proof.Machine Sys2Proof.Safety Sys2Proof.Laws

/-! ### A register file in front of the block -/

/-- F1 drives the samples of `s` while the given frames pass, and its register `a` holds the byte `v`. -/
def Serves (a : RegAddr) (v : Byte) (s : State) (frames : List (List Byte)) : Prop :=
  ∃ m, DrivesPassive m s frames ∧ (m.read a).getD 0 0 = v

theorem answer_length (m : PassiveFile) (cmd : Byte) (n : Nat) : (m.answer cmd n).length = n + 1 := by
  simp [PassiveFile.answer]

/-- After a frame F1 goes on with the file that the frame leaves (95_test_vectors, F1). -/
theorem drivesPassive_after {m : PassiveFile} {s : State} {cmd : Byte} {data : List Byte} {rest : List (List Byte)}
    (h : DrivesPassive m s ((cmd :: data) :: rest)) (T : Nat) :
    DrivesPassive (m.after cmd data) (afterFrame T cmd data s) rest := by
  have hlevels : levelsOf (m.answers ((cmd :: data) :: rest))
      = levelsOf (m.answer cmd data.length) ++ levelsOf ((m.after cmd data).answers rest) := List.flatMap_append
  have hlen : (levelsOf (m.answer cmd data.length)).length = 8 * (data.length + 1) := by
    rw [levelsOf_length, answer_length]
  intro k hk
  have hs := h (8 * (data.length + 1) + k) (by rw [hlevels, List.length_append, hlen]; omega)
  rw [hlevels, ← hlen, List.getElem?_append_right (Nat.le_add_right ..), Nat.add_sub_cancel_left, hlen] at hs
  rw [sample_afterFrame, hs]

/-- A read frame samples the byte held, and leaves it. -/
theorem Serves.read {a : RegAddr} {v : Byte} {s : State} {rest : List (List Byte)}
    (h : Serves a v s ([cmdR (regByte a), 0] :: rest)) (T : Nat) :
    sampledByte s 8 = v ∧ Serves a v (afterRead T (cmdR (regByte a)) 1 s) rest := by
  obtain ⟨m, hd, rfl⟩ := h
  have hm := drivesPassive_after hd T
  rw [after_read] at hm
  refine ⟨sampledByte_of_drives hd 1 ?_, m, hm, rfl⟩
  simp [PassiveFile.answers, answer_read]

/-- A write frame leaves the byte written. -/
theorem Serves.write {a : RegAddr} {v w : Byte} {s : State} {rest : List (List Byte)}
    (h : Serves a v s ([cmdW (regByte a), w] :: rest)) (T : Nat) :
    Serves a w (afterFrame T (cmdW (regByte a)) [w] s) rest := by
  obtain ⟨m, hd, -⟩ := h
  exact ⟨_, drivesPassive_after hd T, by rw [read_after_write]; rfl⟩

/-- From `s` to `t` frames passed, after which the register `a` of F1 holds `f` of the byte it held before. -/
structure Updates (T : Nat) (a : RegAddr) (f : Byte → Byte) (s t : State) : Prop where
  ran : ∃ es, Ran T wireEvent s t es
  serves : ∀ v rest, Serves a v s (framesOf (newEvents s t) ++ rest) → Serves a (f v) t rest

/-- The frames of two runs are those of both. -/
theorem framesOf_newEvents_trans {T : Nat} {ok : Event → Bool} {s t u : State} {es fs : List Event}
    (h : Ran T ok s t es) (k : Ran T ok t u fs) :
    framesOf (newEvents s u) = framesOf (newEvents s t) ++ framesOf (newEvents t u) := by
  rw [(h.trans k).newEvents, h.newEvents, k.newEvents, h.framesOf_append]

theorem Updates.trans {T : Nat} {a : RegAddr} {f g : Byte → Byte} {s t u : State} (h : Updates T a f s t)
    (k : Updates T a g t u) : Updates T a (fun v => g (f v)) s u := by
  obtain ⟨⟨es, hr⟩, hs⟩ := h
  obtain ⟨⟨fs, kr⟩, ks⟩ := k
  refine ⟨⟨_, hr.trans kr⟩, fun v rest hv => ks _ _ (hs v _ ?_)⟩
  rwa [framesOf_newEvents_trans hr kr, List.append_assoc] at hv

theorem updates_rmw (T : Nat) (a : RegAddr) (f : Byte → Byte) (s : State) :
    Updates T a f s (afterRmw T (regByte a) f s) := by
  obtain ⟨es, hr, -⟩ := ran_rmw T (regByte a) f s
  refine ⟨⟨es, hr⟩, fun v rest hv => ?_⟩
  rw [framesOf_afterRmw] at hv
  obtain ⟨rfl, hread⟩ := hv.read T
  exact hread.write T

/-! ### The data-rate law -/

/-- The two bits of the field are the code of the rate (30_encoding R71). -/
def HoldsRate (P : Params) (rate : DataRate) (v : Byte) : Prop :=
  (v.getLsbD P.bitDrHi, v.getLsbD P.bitDrLo) = rateCode rate

theorem HoldsRate.decoded {P : Params} {rate : DataRate} {v : Byte} (h : HoldsRate P rate v) :
    rateOfCode (testBitIn v P.bitDrHi) (testBitIn v P.bitDrLo) = rate := by
  have hh : v.getLsbD P.bitDrHi = (rateCode rate).1 := congrArg Prod.fst h
  have hl : v.getLsbD P.bitDrLo = (rateCode rate).2 := congrArg Prod.snd h
  rw [testBitIn_eq, testBitIn_eq, hh, hl]
  cases rate <;> rfl

/-- In each form setDataRate leaves the field of the register at the code of the rate (42_radio_control R121). -/
theorem updates_setDataRate {P : Params} (hne : P.bitDrHi ≠ P.bitDrLo) (rate : DataRate) (s : State) :
    ∃ f, Updates P.tSettle P.regDr f s (afterSetDataRate P rate s) ∧ ∀ v, HoldsRate P rate (f v) := by
  have rmw (f : Byte → Byte) (u : State) := updates_rmw P.tSettle P.regDr f u
  rw [afterSetDataRate]
  cases P.sdrForm with
  | rmwHiFirst =>
    refine ⟨_, (rmw _ s).trans (rmw _ _), fun v => ?_⟩
    simp only [HoldsRate, putBitIn_getLsbD, hne, if_true, if_false]
  | rmwLoFirst =>
    refine ⟨_, (rmw _ s).trans (rmw _ _), fun v => ?_⟩
    simp only [HoldsRate, putBitIn_getLsbD, hne.symm, if_true, if_false]
  | oneRmw =>
    refine ⟨_, rmw _ s, fun v => ?_⟩
    simp only [HoldsRate, putRateIn_getLsbD v hne, hne.symm, if_true, if_false]

/-- The byte held answers both of two read frames. -/
theorem Serves.readTwice {a : RegAddr} {v : Byte} {s : State} {T : Nat}
    (h : Serves a v s (framesOf (newEvents s
      (afterRead T (cmdR (regByte a)) 1 (afterRead T (cmdR (regByte a)) 1 s))))) :
    sampledByte s 8 = v ∧ sampledByte s 24 = v := by
  have once (u : State) : Ran T wireEvent u (afterRead T (cmdR (regByte a)) 1 u) _ := ran_frame T _ [0] u
  rw [framesOf_newEvents_trans (once s) (once _), framesOf_afterRead, framesOf_afterRead] at h
  obtain ⟨h1, hs⟩ := h.read T
  obtain ⟨h2, -⟩ := hs.read T
  rw [afterRead, sampledByte_afterFrame] at h2
  exact ⟨h1, h2⟩

/-- In each form getDataRate decodes the field of the byte held (42_radio_control R123). -/
theorem rateRead_of_serves {P : Params} {v : Byte} {s : State}
    (h : Serves P.regDr v s (framesOf (newEvents s (afterGetDataRate P s)))) :
    rateRead P s = rateOfCode (testBitIn v P.bitDrHi) (testBitIn v P.bitDrLo) := by
  rw [afterGetDataRate] at h
  rw [rateRead]
  cases hf : P.gdrForm with
  | oneRead =>
    simp only [hf, framesOf_afterRead] at h
    rw [(h.read P.tSettle).1]
  | readbitHiFirst | readbitLoFirst =>
    simp only [hf] at h
    rw [h.readTwice.1, h.readTwice.2]

/-- Settles O60: the file is followed through setDataRate to getDataRate, and the code read back is that of the rate. -/
theorem dataRateRoundTrip : Obligations.DataRateRoundTrip := by
  intro P rate m s hne read hd
  obtain ⟨f, ⟨⟨es, hr⟩, hs⟩, hf⟩ := updates_setDataRate hne rate s
  obtain ⟨fs, kr⟩ := ran_getDataRate P (afterSetDataRate P rate s)
  have hread : read = (rateRead P (afterSetDataRate P rate s), afterGetDataRate P (afterSetDataRate P rate s)) := by
    rw [← getDataRate_eq, ← setDataRate_eq]
  rw [hread, framesOf_newEvents_trans hr kr] at hd
  rw [hread, rateRead_of_serves (hs _ _ ⟨m, hd, rfl⟩), (hf _).decoded]

end Sys2Proof.Proofs
end

section
/-! PROOFS. Faults and refusals. What the checks in front of an operation answer on a busy, an unbound and a ready block gives the
outcome of every instruction there, and bytes that are no instruction stop the step before any of them (60_exceptions R147). A
well-formed instruction passes its own checks, so a ready block completes it. -/

namespace Sys2Proof.Proofs

open Sys2Proof.Machine Sys2Proof.Safety Sys2Proof.Laws

/-! ### TRANSFER_BYTE -/

/-- Settles O8: the chip-select latch decides between the refusal and the transfer. -/
theorem transferRequest : Obligations.TransferRequest := by
  intro out s hs
  refine ⟨fun hc => ?_, fun hc => ?_⟩
  · rw [exec, execXfer, whenReady_of_ready hs, if_pos hc]
  · rw [exec, execXfer, whenReady_of_ready hs, if_neg (by simp [hc]), transfer_eq, sampledByte_enter]; rfl

/-! ### Completion -/

/-- Every instruction but BEGIN leaves a ready block ready. -/
theorem exec_ready {i : Instr} {s t : State} (hs : Ready s) (hp : ∀ p, i ≠ .beginPins p) (h : exec i s = .next t) :
    Ready t := by
  obtain ⟨hk, -⟩ := exec_keepsBinding hp h
  obtain ⟨_, hr⟩ := exec_recorded h
  exact ⟨hr.busy, hk.bound.trans hs.2⟩

/-- Well-formed arguments pass the checks of SET_BIT, CLEAR_BIT, READ_BIT, SET_CRC_SIZE and WRITE_REGISTER_N, and the other
instructions check nothing once they are admitted (60_exceptions R140). -/
theorem exec_completes {i : Instr} {s : State} (hs : Ready s) (hw : i.wellFormed = true) (hx : ∀ out, i ≠ .xfer out)
    (hp : ∀ p, i ≠ .beginPins p) : ∃ t, exec i s = .next t := by
  cases i with
  | xfer out => exact absurd rfl (hx out)
  | beginPins p => exact absurd rfl (hp p)
  | setb addr b => exact ⟨_, exec_setb_of_ready hs (of_decide_eq_true hw) addr⟩
  | clrb addr b => exact ⟨_, exec_clrb_of_ready hs (of_decide_eq_true hw) addr⟩
  | rbit addr b => exact ⟨_, exec_rbit_of_ready hs (of_decide_eq_true hw) addr⟩
  | crc n => exact ⟨_, exec_crc_of_le hs (of_decide_eq_true hw)⟩
  | wregn addr buf len => exact ⟨_, exec_wregn_of_ready hs (of_decide_eq_true hw) addr⟩
  | onrx handler => exact ⟨_, handlerRegistration handler s hs.1⟩
  | poll => exact ⟨_, pollCases s hs⟩
  | cmdReadRegister _ _ | cmdWriteRegister _ _ | cmdReadRxPayloadWidth | cmdReadRxPayload _ =>
    exact ⟨_, whenReadyCommand_of_ready hs _ _⟩
  | _ => exact ⟨_, whenReady_of_ready hs _ _⟩

/-- Settles O40: the instruction completes, and what it records leaves the block idle and bound. -/
theorem wellFormedNeverStops : Obligations.WellFormedNeverStops := fun _ _ hs hw hx hp =>
  let ⟨t, h⟩ := exec_completes hs hw hx hp
  ⟨t, h, exec_ready hs hp h⟩

/-! ### Before begin -/

/-- Before begin a request faults with its ordinal (60_exceptions R138). -/
theorem whenReady_of_unbound {s : State} (hi : s.busy = false) (hb : s.bound = false) (n : Nat) (k : Outcome) :
    whenReady n s k = .fault (.notBound n) := by
  simp [whenReady, ifIdle_of_idle hi, hb]

/-- Each request but BEGIN and SET_RECEIVE_CALLBACK is admitted under its own ordinal. -/
theorem exec_of_unbound {i : Instr} {n : Nat} {s : State} (hn : i.ordinal? = some n) (hi : s.busy = false)
    (hb : s.bound = false) (h23 : n ≠ 23) (h21 : n ≠ 21) : exec i s = .fault (.notBound n) := by
  cases i with
  | onrx _ => cases hn; exact absurd rfl h21
  | beginPins _ => cases hn; exact absurd rfl h23
  | cmdReadRegister _ _ | cmdWriteRegister _ _ | cmdReadRxPayloadWidth | cmdReadRxPayload _ => cases hn
  | _ => cases hn; exact whenReady_of_unbound hi hb _ _

/-- BEGIN completes or is refused, whatever the state (60_exceptions R144). -/
theorem exec_begin_ne_fault (p : Option Pins) (s : State) (f : Fault) : exec (.beginPins p) s ≠ .fault f := by
  rw [exec, execBegin.eq_def, ifIdle]
  split
  · nofun
  split
  · nofun
  cases p with
  | none => nofun
  | some p =>
    dsimp only
    split <;> nofun

/-- The two requests that need no binding, by their ordinals (30_encoding R73). -/
theorem onrx_or_begin_of_ordinal {i : Instr} {n : Nat} (hn : i.ordinal? = some n) (h : n = 23 ∨ n = 21) :
    (∃ hd, i = .onrx hd) ∨ ∃ p, i = .beginPins p := by
  cases i with
  | onrx hd => exact .inl ⟨hd, rfl⟩
  | beginPins p => exact .inr ⟨p, rfl⟩
  | cmdReadRegister _ _ | cmdWriteRegister _ _ | cmdReadRxPayloadWidth | cmdReadRxPayload _ => cases hn
  | _ => cases hn; exact absurd h (by decide)

/-- Settles O36: the admission faults; SET_RECEIVE_CALLBACK completes on an idle block, and BEGIN has no fault. -/
theorem notBoundFault : Obligations.NotBoundFault := by
  intro i n s hn hi hb
  refine ⟨exec_of_unbound hn hi hb, fun h f => ?_⟩
  obtain ⟨hd, rfl⟩ | ⟨p, rfl⟩ := onrx_or_begin_of_ordinal hn h
  · rw [handlerRegistration hd s hi]
    nofun
  · exact exec_begin_ne_fault p s f

/-- A run ends at the first fault (60_exceptions R139). -/
theorem run_of_fault {s : State} {f : Fault} (h : step s = .fault f) (k : Nat) : core.run (k + 1) s = .fault f := by
  have hc : core.step s = .fault f := h
  simp only [Host.Core.run, hc]

/-- Settles O41: the step is the request, which faults, and a run goes no further. -/
theorem faultIsFinal : Obligations.FaultIsFinal := by
  intro s i n bs rest hi hb hs hd hn h21 h23
  have hstep : step s = .fault (.notBound n) :=
    (step_run hs (fetch_request hd)).trans (exec_of_unbound (s := { s with inbox := rest }) hn hi hb h23 h21)
  exact ⟨hstep, run_of_fault hstep⟩

/-! ### While an operation runs -/

theorem ifIdle_of_busy {s : State} (h : s.busy = true) (k : Outcome) : ifIdle s k = .refused .concurrent := by
  rw [ifIdle, if_pos h]

/-- Every instruction checks first that nothing runs (60_exceptions R147 item 2). -/
theorem exec_of_busy {s : State} (h : s.busy = true) (i : Instr) : exec i s = .refused .concurrent := by
  cases i with
  | _ => exact ifIdle_of_busy h _

/-- Settles O37: a second context's request runs on the state made busy. -/
theorem concurrentRefused : Obligations.ConcurrentRefused :=
  ⟨fun i _ h => exec_of_busy h i, fun _ i _ _ hs hd =>
    (step_overlapping hs (fetch_overlap hd)).trans (exec_of_busy rfl i)⟩

/-! ### Arguments -/

/-- A bit index above 7 is refused (60_exceptions R141). -/
theorem withBitPos_of_gt {b : Byte} (hb : 7 < b.toNat) (k : BitPos → Outcome) :
    withBitPos b k = .refused .bitIndex := by
  rw [withBitPos, bitPos_none b hb]

/-- The three requests that take a bit index check it once they are admitted. -/
theorem whenReady_withBitPos_of_gt {s : State} (hs : Ready s) {b : Byte} (hb : 7 < b.toNat) (n : Nat)
    (k : BitPos → Outcome) : whenReady n s (withBitPos b k) = .refused .bitIndex := by
  rw [whenReady_of_ready hs, withBitPos_of_gt hb]

theorem exec_begin_of_bound {s : State} (hs : Ready s) (p : Option Pins) :
    exec (.beginPins p) s = .refused .rebegin :=
  (ifIdle_of_idle hs.1 _).trans (if_pos hs.2)

theorem exec_begin_of_alias {s : State} (hi : s.busy = false) (hb : s.bound = false) {p : Pins}
    (hp : p.distinct = false) : exec (.beginPins (some p)) s = .refused .pinAlias := by
  simp [exec, execBegin, ifIdle_of_idle hi, hb, hp]

/-- Settles O38: each check of an admitted request, and BEGIN's own two in their order. -/
theorem argumentRefusals : Obligations.ArgumentRefusals := by
  intro s addr b n buf len hi
  refine ⟨fun hb hbit => ?_, fun hb hn => exec_crc_of_gt ⟨hi, hb⟩ hn, fun hb hl => exec_wregn_of_short ⟨hi, hb⟩ hl addr,
    fun hb => exec_begin_of_bound ⟨hi, hb⟩, fun hb p => exec_begin_of_alias hi hb⟩
  have refused := whenReady_withBitPos_of_gt (s := s) ⟨hi, hb⟩ hbit
  exact ⟨refused 6 _, refused 7 _, refused 8 _⟩

/-! ### Bytes that are no instruction -/

theorem step_unknown {s : State} {x : HostInput} {rest : List HostInput} {e : DecodeError} (hs : s.inbox = x :: rest)
    (hx : fetch x = .unknown e) : step s = .refused (.unknown e) := by
  simp [step, hs, hx]

/-- Settles O39: each kind of item that carries bytes is fetched as unknown where its decoder fails. -/
theorem unknownRefused : Obligations.UnknownRefused := by
  intro s bs rest e
  refine ⟨?_, fun hs hd => step_unknown hs (by simp [fetch, hd])⟩
  rintro (hs | hs) hd
  · exact step_unknown hs (by simp [fetch, hd])
  · exact step_unknown hs (by simp [fetch, hd])

end Sys2Proof.Proofs
end

section
/-! PROOFS. Reset and hazards. BEGIN completes on an unbound, idle block, and what it adds to the trace is the pin
initialisation, the events of its twenty steps in order, and chip-enable high; the laws of the recipe say which frames
and which chip-enable events the steps may show (70_reset_and_hazards R151 to R157). No operation waits while
chip-select is high, and the waits of a frame add up to 24 settle delays a byte (70_reset_and_hazards R162, R169). -/

namespace Sys2Proof.Proofs

open Sys2Proof.Machine Sys2Proof.Safety Sys2Proof.Laws

/-! ### BEGIN completes -/

/-- BEGIN with distinct pins on an unbound, idle block (70_reset_and_hazards R151). -/
theorem exec_begin_of_distinct {s : State} (hi : s.busy = false) (hb : s.bound = false) {p : Pins}
    (hp : p.distinct = true) : exec (.beginPins (some p)) s = .next (ended (afterBegin Config.params p (enter s))) := by
  simp [exec, execBegin, ifIdle_of_idle hi, hb, hp, bootWith_eq, complete_eq]

/-- BEGIN without pins is BEGIN with the pin parameters, which are distinct by their law (00_scope R7). -/
theorem exec_begin_none (s : State) : exec (.beginPins none) s = exec (.beginPins (some Config.params.pins)) s := by
  simp [exec, execBegin, params_pins_distinct]

/-- Settles O32: with the given pins, or with the pin parameters. -/
theorem beginSequence : Obligations.BeginSequence := by
  intro pins s hi hb hd
  cases pins with
  | none => exact (exec_begin_none s).trans (exec_begin_of_distinct hi hb params_pins_distinct)
  | some p => exact exec_begin_of_distinct hi hb (hd p rfl)

/-! ### The laws of the recipe -/

/-- What the laws of the parameters fix of the steps that BEGIN's frames and chip-enable events come from. -/
structure RecipeLaws (P : Params) : Prop where
  calibration : ((P.recipe.toList.drop 3).take 6).map (fun st => st.writePayload.map List.length)
    = calibrationLengths.map some
  address17 : P.recipe[16].writePayload = some pipeAddress17
  address18 : P.recipe[17].writePayload = some pipeAddress18
  noCe : ∀ st ∈ P.recipe.toList.take 19, st ≠ .setModeRX

theorem params_recipeLaws : RecipeLaws Config.params := by
  have h := params_recipeOk
  simp only [Params.recipeOk, Bool.and_eq_true, beq_iff_eq, List.all_eq_true, bne_iff_ne] at h
  obtain ⟨⟨⟨⟨⟨⟨⟨-, hcal⟩, -⟩, -⟩, h17⟩, h18⟩, -⟩, hce⟩ := h
  exact ⟨hcal, h17, h18, hce⟩

/-- The laws leave it open that S20 is SET_MODE_RX: the example binding with that last step is well-formed
(70_reset_and_hazards R155). -/
theorem wf_with_setModeRX_last :
    { exampleBinding with recipe := exampleBinding.recipe.set 19 .setModeRX }.wf = true := by
  decide

/-- Step `S(4 + j)` is a write frame of the `j`-th calibration length (70_reset_and_hazards R154). -/
theorem RecipeLaws.calibration_payload {P : Params} (h : RecipeLaws P) {j : Nat} (hj : j < 6) :
    ∃ d, P.recipe[3 + j].writePayload = some d ∧ d.length = calibrationLengths.getD j 0 := by
  have hcal := congrArg (·[j]?) h.calibration
  have hlen : j < calibrationLengths.length := hj
  have hstep : P.recipe.toList[3 + j]? = some P.recipe[3 + j] := by
    rw [List.getElem?_eq_getElem (by rw [Vector.length_toList]; omega)]; rfl
  simp only [List.getElem?_map, List.getElem?_take_of_lt hj, List.getElem?_drop, hstep,
    List.getElem?_eq_getElem hlen, Option.map_some, Option.some.injEq, Option.map_eq_some_iff] at hcal
  rwa [List.getD_eq_getElem _ _ hlen]

/-! ### The steps of BEGIN -/

/-- BEGIN performs the first step of its recipe after the pin initialisation. -/
theorem recipeState_zero (P : Params) (p : Pins) (s : State) : recipeState P p s 0 = afterPinInit p s := rfl

/-- The frames that a bus monitor reads in step `k` of BEGIN's recipe, counted from 0. -/
def stepFrames (P : Params) (p : Pins) (s : State) (k : Nat) : List (List Byte) :=
  framesOf (newEvents (recipeState P p s k) (recipeState P p s (k + 1)))

/-- What step `k` recorded. -/
theorem ran_recipeStep (P : Params) (p : Pins) (s : State) {k : Nat} (hk : k < 20) :
    StepRan P P.recipe[k] (recipeState P p s k) (newEvents (recipeState P p s k) (recipeState P p s (k + 1))) := by
  obtain ⟨es, h⟩ := ran_step P P.recipe[k] (recipeState P p s k)
  rwa [recipeState_succ P p s k hk, h.ran.newEvents]

/-- A step that is a write frame shows that frame and no other. -/
theorem stepFrames_of_writePayload (P : Params) (p : Pins) (s : State) {k : Nat} (hk : k < 20) {d : List Byte}
    (hd : P.recipe[k].writePayload = some d) : ∃ c, stepFrames P p s k = [c :: d] :=
  (ran_recipeStep P p s hk).frame d hd

/-- A calibration block is one frame, of the command byte and as many payload bytes as its length. -/
theorem RecipeLaws.stepFrames_lengths {P : Params} (h : RecipeLaws P) (p : Pins) (s : State) {j : Nat} (hj : j < 6) :
    (stepFrames P p s (3 + j)).map List.length = [calibrationLengths.getD j 0 + 1] := by
  obtain ⟨d, hd, hl⟩ := h.calibration_payload hj
  obtain ⟨c, hc⟩ := stepFrames_of_writePayload P p s (by omega) hd
  rw [hc, ← hl]; rfl

/-- The events of two runs are those of one and then the other. -/
theorem newEvents_trans {T : Nat} {ok : Event → Bool} {s t u : State} {es fs : List Event} (h : Ran T ok s t es)
    (k : Ran T ok t u fs) : newEvents s u = newEvents s t ++ newEvents t u := by
  rw [(h.trans k).newEvents, h.newEvents, k.newEvents]

/-- Events of the wire do not drive chip-enable. -/
theorem ce_notMem_of_wire {es : List Event} (h : es.all wireEvent = true) (l : Level) : Event.set .ce l ∉ es :=
  fun hm => absurd (List.all_eq_true.mp h _ hm) (by simp [wireEvent])

/-- The first nineteen steps do not drive chip-enable (70_reset_and_hazards R155). -/
theorem RecipeLaws.first_noCe {P : Params} (h : RecipeLaws P) (p : Pins) (s : State) (l : Level) :
    Event.set .ce l ∉ newEvents (recipeState P p s 0) (recipeState P p s 19) := by
  obtain ⟨es, hr, hwire⟩ := ran_steps P (P.recipe.toList.take 19) (afterPinInit p s)
  rw [recipeState_zero, recipeState, hr.newEvents]
  exact ce_notMem_of_wire (hwire h.noCe) l

/-- SET_MODE_RX ends with chip-enable driven high (42_radio_control R118). -/
theorem setModeRX_getLast (P : Params) (s : State) :
    (newEvents s (afterStep P s .setModeRX)).getLast? = some (.set .ce true) := by
  obtain ⟨es, hr, -⟩ := ran_rmw P.tSettle (regByte P.regConfig) (fun v => v ||| mask P.bitPrimRx) (afterCe false s)
  have ht : (afterStep P s .setModeRX).trace = s.trace ++ ((Event.set .ce false :: es) ++ [Event.set .ce true]) := by
    rw [afterStep, afterCe_trace, hr.trace, afterCe_trace]; simp
  rw [newEvents_of ht, List.getLast?_concat]

/-! ### BEGIN's events -/

/-- BEGIN adds the pin initialisation, the events of its steps and chip-enable high (70_reset_and_hazards R151). -/
theorem begin_trace {pins : Option Pins} {s t : State} (h : exec (.beginPins pins) s = .next t) :
    let before := recipeState Config.params (pins.getD Config.params.pins) (enter s)
    t.trace = s.trace ++ (pinInitEvents ++ (newEvents (before 0) (before 20) ++ [.set .ce true])) := by
  obtain ⟨-, -, -, rfl⟩ := begin_next h
  rw [ended_trace]
  exact (begin_pins_trace Config.params _ (enter s)).2

/-- Settles O33: the trace of BEGIN, split before its last step, the only one that may be SET_MODE_RX. -/
theorem beginEvents : Obligations.BeginEvents := by
  intro pins s t h before first last
  obtain ⟨es, hr, -⟩ := ran_recipe Config.params (pins.getD Config.params.pins) (enter s) 19 (by decide)
  have hlast : StepRan Config.params Config.params.recipe[19] (before 19) last := ran_recipeStep _ _ _ (by decide)
  have hsucc : before 20 = afterStep Config.params (before 19) Config.params.recipe[19] :=
    recipeState_succ _ _ _ 19 (by decide)
  refine ⟨?_, params_recipeLaws.first_noCe _ _, fun l hm => ?_, fun hrx => ?_⟩
  · have hall : newEvents (before 0) (before 20) = first ++ last := newEvents_trans hr (hsucc ▸ hlast.ran)
    rw [begin_trace h, hall, List.append_assoc]
  · by_contra hne
    exact ce_notMem_of_wire (hlast.noCe hne) l hm
  · have hl : last = newEvents (before 19) (afterStep Config.params (before 19) .setModeRX) := by
      rw [← hrx, ← hsucc]
    rw [hl, setModeRX_getLast]

/-! ### BEGIN's frames -/

/-- The pin initialisation opens no frame. -/
theorem framesOf_pinInit_append (es : List Event) : framesOf (pinInitEvents ++ es) = framesOf es := rfl

/-- BEGIN's frames are those of its steps in order (70_reset_and_hazards R153). -/
theorem begin_framesOf {pins : Option Pins} {s t : State} (h : exec (.beginPins pins) s = .next t) :
    framesOf (newEvents s t)
      = (List.range 20).flatMap (stepFrames Config.params (pins.getD Config.params.pins) (enter s)) := by
  obtain ⟨es, hr, hf⟩ := ran_recipe Config.params (pins.getD Config.params.pins) (enter s) 20 (Nat.le_refl _)
  rw [newEvents_of (begin_trace h), framesOf_pinInit_append, recipeState_zero, hr.newEvents, hr.framesOf_append, hf]
  exact List.append_nil _

/-- Settles O35: the frames of the steps, and the payloads that the laws of the recipe give. -/
theorem beginFixedFrames : Obligations.BeginFixedFrames := by
  intro pins s t h before frames
  refine ⟨begin_framesOf h, ?_, stepFrames_of_writePayload _ _ _ (by decide) params_recipeLaws.address17,
    stepFrames_of_writePayload _ _ _ (by decide) params_recipeLaws.address18⟩
  exact List.map_congr_left (g := fun j => [calibrationLengths.getD j 0 + 1]) fun j hj =>
    params_recipeLaws.stepFrames_lengths _ _ (List.mem_range.mp hj)

/-! ### The state after BEGIN -/

/-- BEGIN sends a byte: S17 is a frame (70_reset_and_hazards R154). -/
theorem begin_lastWireByte {pins : Option Pins} {s t : State} (h : exec (.beginPins pins) s = .next t) :
    ∃ w, (framesOf (newEvents s t)).flatten.getLast? = some w := by
  obtain ⟨c, hc⟩ := stepFrames_of_writePayload Config.params (pins.getD Config.params.pins) (enter s) (k := 16)
    (by decide) params_recipeLaws.address17
  have hmem : c ∈ (framesOf (newEvents s t)).flatten := by
    rw [begin_framesOf h, List.mem_flatten]
    exact ⟨_, List.mem_flatMap.mpr ⟨16, by decide, hc ▸ List.mem_singleton_self _⟩, List.mem_cons_self ..⟩
  exact ⟨_, List.getLast?_eq_some_getLast (List.ne_nil_of_mem hmem)⟩

/-- Settles O34: the run after the pin initialisation keeps what that has set, and drives MOSI to its last bit. -/
theorem stateAfterBegin : Obligations.StateAfterBegin := by
  intro pins s t h
  obtain ⟨w, hw⟩ := begin_lastWireByte h
  obtain ⟨-, -, -, rfl⟩ := begin_next h
  obtain ⟨es, hr, htr⟩ := begin_ran (pins.getD Config.params.pins) s
  refine ⟨hr.bound, hr.pins, hr.dir, hr.csn rfl, hr.sck rfl, rfl, rfl, hr.rxHandler, w, hw, ?_⟩
  rw [newEvents_of htr, framesOf_pinInit_append] at hw
  rw [ended_mosi, hr.mosi, hw]; rfl

/-! ### Waits while chip-select is high -/

/-- Settles O54: the pin initialisation does not wait, every run waits only while chip-select is low, and a
TRANSFER_BYTE is refused where chip-select is high. -/
theorem noWaitBetweenFrames : Obligations.NoWaitBetweenFrames := by
  intro i s t hc h
  by_cases hx : ∃ out, i = .xfer out
  · obtain ⟨out, rfl⟩ := hx
    obtain ⟨-, -, hlow, -⟩ := xfer_next h
    exact absurd (hc.symm.trans hlow) (by decide)
  by_cases hp : ∃ p, i = .beginPins p
  · obtain ⟨p, rfl⟩ := hp
    obtain ⟨-, -, -, rfl⟩ := begin_next h
    obtain ⟨es, hr, htr⟩ := begin_ran (p.getD Config.params.pins) s
    rw [newEvents_of htr, ← List.append_nil (es ++ _)]
    exact hr.high []
  obtain ⟨-, es, hd, -⟩ := exec_did h (fun out e => hx ⟨out, e⟩) fun p e => hp ⟨p, e⟩
  rw [hd.newEvents, ← List.append_nil es]
  exact hd.high []

/-! ### The least time -/

/-- A transfer takes at least 24 settle delays (70_reset_and_hazards R169). -/
theorem minTime_transfer (T : Nat) (out : Byte) (s : State) :
    minTime (newEvents s (afterTransfer T out s)) = 24 * T := by
  have h := minTime_bytes T s 0 [out]
  rw [bytesEvents, bytesEvents, List.append_nil] at h
  rw [newEvents_afterTransfer, h]; rfl

theorem minTime_afterFrame (T : Nat) (cmd : Byte) (data : List Byte) (s : State) :
    minTime (newEvents s (afterFrame T cmd data s)) = 24 * (data.length + 1) * T := by
  rw [(ran_frame T cmd data s).newEvents, minTime_frame]

theorem minTime_afterRmw (T : Nat) (addr : Byte) (f : Byte → Byte) (s : State) :
    minTime (newEvents s (afterRmw T addr f s)) = 96 * T := by
  obtain ⟨es, hr, -, ht, -⟩ := ran_rmw T addr f s
  rw [hr.newEvents, ht]

/-- The events of a request that is run and ended are those of its body. -/
theorem newEvents_ended (s u : State) : newEvents s (ended u) = newEvents (enter s) u := rfl

/-- Settles O56: each operation is a transfer, a frame or a read-modify-write, and each request one of the last two. -/
theorem minimumTimes : Obligations.MinimumTimes := by
  refine ⟨fun T s => ⟨fun out => ?_, fun cmd data => ?_, fun addr i => ⟨?_, ?_⟩⟩, fun s cmd addr b data hs =>
    ⟨⟨_, writeCommandFrame cmd data s hs, ?_⟩, fun hb =>
      ⟨_, _, exec_setb_of_ready hs hb addr, exec_clrb_of_ready hs hb addr, ?_, ?_⟩⟩⟩
  · rw [transfer_eq, minTime_transfer]
  · rw [frame_eq, minTime_afterFrame]
  · rw [setBit_eq, minTime_afterRmw]
  · rw [clearBit_eq, minTime_afterRmw]
  · rw [newEvents_ended, minTime_afterFrame]
  · rw [newEvents_ended, minTime_afterRmw]
  · rw [newEvents_ended, minTime_afterRmw]

end Sys2Proof.Proofs
end
